-- ==== Sys2Proof/Word.lean ====
section
/-! DEFINITION. The word types of the core (spec/00_scope.md R5 to R7): one width for registers, addresses, memory
words and instructions. -/

namespace Sys2Proof

/-- A register, a memory word, an address or an instruction: 16 bits, arithmetic modulo 65536 (R5, R7). -/
abbrev Word := BitVec 16

/-- A console byte: 8 bits (R65). -/
abbrev Byte := BitVec 8

/-- A general register's index, the value of a 3-bit field; all eight values name a register (R21, R91). -/
abbrev RegIdx := BitVec 3

end Sys2Proof
end

