-- ==== Sys2Proof/Syntax.lean ====
section
/-! DEFINITION. The instructions: one constructor for each of the 26 rows of spec/opcode_table.json (R93, R102). The
last seven rows (RET and the six service names) are names for words inside the JMP and TRAP rows (R101). The opcode
names of R96 stand here too. -/

namespace Sys2Proof

/-- One instruction. Register operands are 3-bit indices; immediates and offsets are the raw fields of R91, extended
where they are used (R92). Bits the hardware does not examine (R94) are no part of an instruction. -/
inductive Instr where
  /-- BR: branch mask `nzp` (bit 2 is n, bit 1 is z, bit 0 is p) and PCoffset9 (R141). -/
  | br (nzp : BitVec 3) (off : BitVec 9)
  /-- ADD, register form (R131). -/
  | addReg (dr sr1 sr2 : RegIdx)
  /-- ADD, immediate form (R132). -/
  | addImm (dr sr1 : RegIdx) (imm : BitVec 5)
  /-- LD (R151). -/
  | ld (dr : RegIdx) (off : BitVec 9)
  /-- ST (R156). -/
  | st (sr : RegIdx) (off : BitVec 9)
  /-- JSRR (R145). -/
  | jsrr (base : RegIdx)
  /-- JSR (R144). -/
  | jsr (off : BitVec 11)
  /-- AND, register form (R133). -/
  | andReg (dr sr1 sr2 : RegIdx)
  /-- AND, immediate form (R134). -/
  | andImm (dr sr1 : RegIdx) (imm : BitVec 5)
  /-- LDR (R153). -/
  | ldr (dr base : RegIdx) (off : BitVec 6)
  /-- STR (R158). -/
  | str (sr base : RegIdx) (off : BitVec 6)
  /-- RTI, which always faults (R181). -/
  | rti
  /-- NOT (R135). -/
  | not (dr sr : RegIdx)
  /-- LDI (R152). -/
  | ldi (dr : RegIdx) (off : BitVec 9)
  /-- STI (R157). -/
  | sti (sr : RegIdx) (off : BitVec 9)
  /-- JMP (R142). -/
  | jmp (base : RegIdx)
  /-- The reserved opcode, which always faults (R182). -/
  | res
  /-- LEA (R154). -/
  | lea (dr : RegIdx) (off : BitVec 9)
  /-- TRAP with its 8-bit vector (R170). -/
  | trap (vect : BitVec 8)
  /-- RET: JMP with base register 7 (R143). -/
  | ret
  /-- GETC: TRAP x20 (R172). -/
  | getc
  /-- OUT: TRAP x21 (R173). -/
  | out
  /-- PUTS: TRAP x22 (R174). -/
  | puts
  /-- IN: TRAP x23 (R175). -/
  | inp
  /-- PUTSP: TRAP x24 (R176). -/
  | putsp
  /-- HALT: TRAP x25 (R177). -/
  | halt
  deriving DecidableEq, Repr

/-- The sixteen opcode values, a closed enumeration (R2, R90, R96). -/
inductive Opcode where
  | br | add | ld | st | jsr | and | ldr | str | rti | not | ldi | sti | jmp | reserved | lea | trap
  deriving DecidableEq, Repr

/-- The nineteen decoder rows of spec/opcode_table.json, by format (R93, R102, R103). -/
inductive RowName where
  | br | addReg | addImm | ld | st | jsrr | jsr | andReg | andImm | ldr | str | rti | not | ldi | sti | jmp | res | lea
  | trap
  deriving DecidableEq, Repr

/-- A decoder row: a word `w` matches iff `w &&& mask = pattern` (R102). -/
structure DecoderRow where
  name    : RowName
  pattern : Word
  mask    : Word
  deriving DecidableEq, Repr

end Sys2Proof
end

