-- ==== Sys2Proof/Decode.lean ====
section
/-! DEFINITION. The decoder and the encoder, from the formats of spec/30_encoding.md R93, the fields of R91, the opcode
map of R96 and the trap vectors of R97. Decoding is total (R95): every word is an instruction, so nothing is rejected
here; the words that always fail decode to instructions whose meaning raises a fault (R98). -/

namespace Sys2Proof

/-- The opcode map, `bits[15:12]` of each operation (R96). PRESUMED, unsafe: the numbers are the LC-3 family's, by the
spec's decision D1 (log entry 2). -/
def opcodeValue : Opcode → BitVec 4
  | .br       => 0b0000#4
  | .add      => 0b0001#4
  | .ld       => 0b0010#4
  | .st       => 0b0011#4
  | .jsr      => 0b0100#4
  | .and      => 0b0101#4
  | .ldr      => 0b0110#4
  | .str      => 0b0111#4
  | .rti      => 0b1000#4
  | .not      => 0b1001#4
  | .ldi      => 0b1010#4
  | .sti      => 0b1011#4
  | .jmp      => 0b1100#4
  | .reserved => 0b1101#4
  | .lea      => 0b1110#4
  | .trap     => 0b1111#4

/-- The operation of a 4-bit opcode: the map of R96 read backwards. -/
def opcodeOf (v : BitVec 4) : Opcode :=
  match v.toNat with
  | 0  => .br
  | 1  => .add
  | 2  => .ld
  | 3  => .st
  | 4  => .jsr
  | 5  => .and
  | 6  => .ldr
  | 7  => .str
  | 8  => .rti
  | 9  => .not
  | 10 => .ldi
  | 11 => .sti
  | 12 => .jmp
  | 13 => .reserved
  | 14 => .lea
  | _  => .trap

/-- `TRAP_GETC` (R97). PRESUMED, unsafe: D2, log entry 3. -/
abbrev trapGetc : BitVec 8 := 0x20#8
/-- `TRAP_OUT` (R97). PRESUMED, unsafe: D2, log entry 3. -/
abbrev trapOut : BitVec 8 := 0x21#8
/-- `TRAP_PUTS` (R97). PRESUMED, unsafe: D2, log entry 3. -/
abbrev trapPuts : BitVec 8 := 0x22#8
/-- `TRAP_IN` (R97). PRESUMED, unsafe: D2, log entry 3. -/
abbrev trapIn : BitVec 8 := 0x23#8
/-- `TRAP_PUTSP` (R97). PRESUMED, unsafe: D2, log entry 3. -/
abbrev trapPutsp : BitVec 8 := 0x24#8
/-- `TRAP_HALT`, the one vector the source itself gives (R97). -/
abbrev trapHalt : BitVec 8 := 0x25#8

/-- The decoder of the nineteen instruction rows, alias rows ignored as R102 asks: the opcode selects the operation,
bit 5 splits ADD and AND, bit 11 splits opcode 0100 (R95, R126). -/
def decodeRow (w : Word) : Instr :=
  match opcodeOf (w.extractLsb' 12 4) with
  | .br       => .br (w.extractLsb' 9 3) (w.extractLsb' 0 9)
  | .add      => if w.getLsbD 5 then .addImm (w.extractLsb' 9 3) (w.extractLsb' 6 3) (w.extractLsb' 0 5)
                 else .addReg (w.extractLsb' 9 3) (w.extractLsb' 6 3) (w.extractLsb' 0 3)
  | .ld       => .ld (w.extractLsb' 9 3) (w.extractLsb' 0 9)
  | .st       => .st (w.extractLsb' 9 3) (w.extractLsb' 0 9)
  | .jsr      => if w.getLsbD 11 then .jsr (w.extractLsb' 0 11) else .jsrr (w.extractLsb' 6 3)
  | .and      => if w.getLsbD 5 then .andImm (w.extractLsb' 9 3) (w.extractLsb' 6 3) (w.extractLsb' 0 5)
                 else .andReg (w.extractLsb' 9 3) (w.extractLsb' 6 3) (w.extractLsb' 0 3)
  | .ldr      => .ldr (w.extractLsb' 9 3) (w.extractLsb' 6 3) (w.extractLsb' 0 6)
  | .str      => .str (w.extractLsb' 9 3) (w.extractLsb' 6 3) (w.extractLsb' 0 6)
  | .rti      => .rti
  | .not      => .not (w.extractLsb' 9 3) (w.extractLsb' 6 3)
  | .ldi      => .ldi (w.extractLsb' 9 3) (w.extractLsb' 0 9)
  | .sti      => .sti (w.extractLsb' 9 3) (w.extractLsb' 0 9)
  | .jmp      => .jmp (w.extractLsb' 6 3)
  | .reserved => .res
  | .lea      => .lea (w.extractLsb' 9 3) (w.extractLsb' 0 9)
  | .trap     => .trap (w.extractLsb' 0 8)

/-- The name a disassembler gives an instruction: RET for JMP R7 and the service's name for a TRAP with a served
vector (R101). It changes no effect: see the obligation AliasRunsAsItsCoreInstruction. -/
def nameAlias : Instr → Instr
  | .jmp base => if base = 7#3 then .ret else .jmp base
  | .trap v =>
      if v = trapGetc then .getc else if v = trapOut then .out else if v = trapPuts then .puts
      else if v = trapIn then .inp else if v = trapPutsp then .putsp else if v = trapHalt then .halt else .trap v
  | .br nzp off => .br nzp off
  | .addReg dr sr1 sr2 => .addReg dr sr1 sr2
  | .addImm dr sr1 imm => .addImm dr sr1 imm
  | .ld dr off => .ld dr off
  | .st sr off => .st sr off
  | .jsrr base => .jsrr base
  | .jsr off => .jsr off
  | .andReg dr sr1 sr2 => .andReg dr sr1 sr2
  | .andImm dr sr1 imm => .andImm dr sr1 imm
  | .ldr dr base off => .ldr dr base off
  | .str sr base off => .str sr base off
  | .rti => .rti
  | .not dr sr => .not dr sr
  | .ldi dr off => .ldi dr off
  | .sti sr off => .sti sr off
  | .res => .res
  | .lea dr off => .lea dr off
  | .ret => .ret
  | .getc => .getc
  | .out => .out
  | .puts => .puts
  | .inp => .inp
  | .putsp => .putsp
  | .halt => .halt

/-- The decoder: every 16-bit word is exactly one instruction (R90, R95). DESIGN CHOICE, safe: the alias rows of the
table have constructors of their own (log entry 4). -/
def decode (w : Word) : Instr :=
  nameAlias (decodeRow w)

/-- A field's value put with its bit 0 at bit `lo` of the word, every other bit 0 (R6, R91). -/
def field {n : Nat} (v : BitVec n) (lo : Nat) : Word :=
  v.setWidth 16 <<< lo

/-- The encoder, from the field positions of R91 and the formats of R93. Unexamined bits are written as an assembler
writes them: 0, and 1 in bits 5:0 of NOT (R94, R100). -/
def encode : Instr → Word
  | .br nzp off         => field (opcodeValue .br) 12 ||| field nzp 9 ||| field off 0
  | .addReg dr sr1 sr2  => field (opcodeValue .add) 12 ||| field dr 9 ||| field sr1 6 ||| field sr2 0
  | .addImm dr sr1 imm  => field (opcodeValue .add) 12 ||| field dr 9 ||| field sr1 6 ||| field 1#1 5 ||| field imm 0
  | .ld dr off          => field (opcodeValue .ld) 12 ||| field dr 9 ||| field off 0
  | .st sr off          => field (opcodeValue .st) 12 ||| field sr 9 ||| field off 0
  | .jsrr base          => field (opcodeValue .jsr) 12 ||| field base 6
  | .jsr off            => field (opcodeValue .jsr) 12 ||| field 1#1 11 ||| field off 0
  | .andReg dr sr1 sr2  => field (opcodeValue .and) 12 ||| field dr 9 ||| field sr1 6 ||| field sr2 0
  | .andImm dr sr1 imm  => field (opcodeValue .and) 12 ||| field dr 9 ||| field sr1 6 ||| field 1#1 5 ||| field imm 0
  | .ldr dr base off    => field (opcodeValue .ldr) 12 ||| field dr 9 ||| field base 6 ||| field off 0
  | .str sr base off    => field (opcodeValue .str) 12 ||| field sr 9 ||| field base 6 ||| field off 0
  | .rti                => field (opcodeValue .rti) 12
  | .not dr sr          => field (opcodeValue .not) 12 ||| field dr 9 ||| field sr 6 ||| field 0b111111#6 0
  | .ldi dr off         => field (opcodeValue .ldi) 12 ||| field dr 9 ||| field off 0
  | .sti sr off         => field (opcodeValue .sti) 12 ||| field sr 9 ||| field off 0
  | .jmp base           => field (opcodeValue .jmp) 12 ||| field base 6
  | .res                => field (opcodeValue .reserved) 12
  | .lea dr off         => field (opcodeValue .lea) 12 ||| field dr 9 ||| field off 0
  | .trap v             => field (opcodeValue .trap) 12 ||| field v 0
  | .ret                => field (opcodeValue .jmp) 12 ||| field 7#3 6
  | .getc               => field (opcodeValue .trap) 12 ||| field trapGetc 0
  | .out                => field (opcodeValue .trap) 12 ||| field trapOut 0
  | .puts               => field (opcodeValue .trap) 12 ||| field trapPuts 0
  | .inp                => field (opcodeValue .trap) 12 ||| field trapIn 0
  | .putsp              => field (opcodeValue .trap) 12 ||| field trapPutsp 0
  | .halt               => field (opcodeValue .trap) 12 ||| field trapHalt 0

/-- The nineteen decoder rows as the machine-readable table gives them, match and mask (R102, R103). -/
def decoderRows : List DecoderRow :=
  [ ⟨.br,     0x0000#16, 0xF000#16⟩, ⟨.addReg, 0x1000#16, 0xF020#16⟩, ⟨.addImm, 0x1020#16, 0xF020#16⟩,
    ⟨.ld,     0x2000#16, 0xF000#16⟩, ⟨.st,     0x3000#16, 0xF000#16⟩, ⟨.jsrr,   0x4000#16, 0xF800#16⟩,
    ⟨.jsr,    0x4800#16, 0xF800#16⟩, ⟨.andReg, 0x5000#16, 0xF020#16⟩, ⟨.andImm, 0x5020#16, 0xF020#16⟩,
    ⟨.ldr,    0x6000#16, 0xF000#16⟩, ⟨.str,    0x7000#16, 0xF000#16⟩, ⟨.rti,    0x8000#16, 0xF000#16⟩,
    ⟨.not,    0x9000#16, 0xF000#16⟩, ⟨.ldi,    0xA000#16, 0xF000#16⟩, ⟨.sti,    0xB000#16, 0xF000#16⟩,
    ⟨.jmp,    0xC000#16, 0xF000#16⟩, ⟨.res,    0xD000#16, 0xF000#16⟩, ⟨.lea,    0xE000#16, 0xF000#16⟩,
    ⟨.trap,   0xF000#16, 0xF000#16⟩ ]

/-- The decoder row an instruction belongs to; an alias belongs to the row it is an alias in (R102). -/
def rowOf : Instr → RowName
  | .br _ _ => .br
  | .addReg _ _ _ => .addReg
  | .addImm _ _ _ => .addImm
  | .ld _ _ => .ld
  | .st _ _ => .st
  | .jsrr _ => .jsrr
  | .jsr _ => .jsr
  | .andReg _ _ _ => .andReg
  | .andImm _ _ _ => .andImm
  | .ldr _ _ _ => .ldr
  | .str _ _ _ => .str
  | .rti => .rti
  | .not _ _ => .not
  | .ldi _ _ => .ldi
  | .sti _ _ => .sti
  | .jmp _ | .ret => .jmp
  | .res => .res
  | .lea _ _ => .lea
  | .trap _ | .getc | .out | .puts | .inp | .putsp | .halt => .trap

/-- The opcode an instruction is encoded under (R96). -/
def opcodeOfInstr : Instr → Opcode
  | .br _ _ => .br
  | .addReg _ _ _ | .addImm _ _ _ => .add
  | .ld _ _ => .ld
  | .st _ _ => .st
  | .jsrr _ | .jsr _ => .jsr
  | .andReg _ _ _ | .andImm _ _ _ => .and
  | .ldr _ _ _ => .ldr
  | .str _ _ _ => .str
  | .rti => .rti
  | .not _ _ => .not
  | .ldi _ _ => .ldi
  | .sti _ _ => .sti
  | .jmp _ | .ret => .jmp
  | .res => .reserved
  | .lea _ _ => .lea
  | .trap _ | .getc | .out | .puts | .inp | .putsp | .halt => .trap

/-- The bits of the word that the hardware examines for an instruction of this row; the rest have no effect (R94). -/
def examinedBits : RowName → Word
  | .addReg | .andReg => 0xFFE7#16
  | .not  => 0xFFC0#16
  | .jmp  => 0xF1C0#16
  | .jsrr => 0xF9C0#16
  | .trap => 0xF0FF#16
  | .rti | .res => 0xF000#16
  | .br | .addImm | .ld | .st | .jsr | .andImm | .ldr | .str | .ldi | .sti | .lea => 0xFFFF#16

/-- The instruction word whose low `nbits` bits are those of `w` and whose other bits are 0. -/
def tableWord (nbits w : Nat) : Word :=
  BitVec.ofNat 16 (w % 2 ^ nbits)

/-- The instruction the decoder reads from a table row's word; no instruction is longer than one word (R90). -/
def decodeTableWord (nbits w : Nat) : Option Instr :=
  if nbits ≤ 16 then some (decode (tableWord nbits w)) else none

end Sys2Proof
end

