-- ==== Sys2Proof/Config.lean ====
section
/-! DEFINITION. What is configuration and not state (spec/00_scope.md R5, spec/10_state.md R36). The opcode map (R96)
and the trap vectors (R97) are the tables of Sys2Proof/Decode.lean; the flag mask (R27) is in Machine/Flags.lean. -/

namespace Sys2Proof

/-- `PC_RESET`, the entry point (R5, R231). -/
abbrev Config.pcReset : Word := 0x3000#16

/-- `KBSR`, the keyboard status address; a read of it polls the console (R5, R33, R51). -/
abbrev Config.kbsr : Word := 0xFE00#16

/-- `KBDR`, the keyboard data address, the word a successful poll writes (R5, R33, R51). -/
abbrev Config.kbdr : Word := 0xFE02#16

/-- `KBSR_READY`: bit 15, the bit a successful poll sets in the status word (R5, R51). -/
abbrev Config.kbsrReady : Word := 0x8000#16

/-- `IN_PROMPT`, the bytes the IN service prints. The spec leaves them open as a parameter of the model (R5, R175,
D10, U10), so this constant has no body and nothing can be proved of its value. DESIGN CHOICE, safe: log entry 1. -/
opaque Config.inPrompt : List Byte

/-- What the console input offers at one moment the core looks at it (R66, R67, U11). -/
inductive ConEvent where
  /-- A byte is available. -/
  | byte (b : Byte)
  /-- No byte is available yet. -/
  | quiet
  deriving DecidableEq, Repr

/-- What the console offers at each moment that no script in the state settles; none where the input ends. The spec
leaves every such answer free (R35, U11), so this constant has no body and nothing can be proved of its values.
DESIGN CHOICE, safe: log entry 6. -/
opaque Config.conMoment : Nat → Option ConEvent

end Sys2Proof
end

