-- ==== Sys2Proof/Machine/State.lean ====
section
/-! DEFINITION. The state of one core instance (spec/10_state.md R20 to R38), as plain data, and its reset value (R37,
R230). The console, outside the core (R35), stands here as the data the primitives of R66 to R69 read and append to. -/

namespace Sys2Proof.Machine

/-- The condition flag: always exactly one of three values (R25). -/
inductive Cond where
  | negative
  | zero
  | positive
  deriving DecidableEq, Repr

/-- The causes of a fatal stop, with the info each records (R202). -/
inductive FaultCause where
  /-- Code 1: the fetched word has opcode 1000 (R181). -/
  | rtiNotImplemented
  /-- Code 2: the fetched word has opcode 1101 (R182). -/
  | reservedOpcode
  /-- Code 3: a TRAP whose vector is not served; the vector is recorded (R178). -/
  | badTrapVector (v : BitVec 8)
  /-- Code 4: the console input ended inside GETC or IN (R172, R175). -/
  | consoleEndOfInput
  deriving DecidableEq, Repr

/-- The console beside the core: what it still offers and what it was given (R35, R65). The core never reads the output
back. DESIGN CHOICE, safe: log entry 6. -/
structure Console where
  /-- The moments of the input already settled, oldest first: a script (R66, U11). -/
  input : List ConEvent
  /-- Whether the input ends after them (R67). If not, every later moment is free. -/
  ended : Bool
  /-- The number of free moments taken so far; the next one is `Config.conMoment clock`. -/
  clock : Nat
  /-- The output so far, oldest byte first (R68). -/
  output : List Byte
  deriving DecidableEq, Repr

/-- The service whose blocking console read has not been answered yet (R67, R216). -/
inductive BlockedRead where
  | getc
  | inp
  deriving DecidableEq, Repr

/-- An instruction that has not finished (R216, R250). -/
inductive Unfinished where
  /-- GETC or IN, waiting for the console (R67). -/
  | reading (r : BlockedRead)
  /-- PUTS, about to read the word at `a` (R174). -/
  | puts (a : Word)
  /-- PUTSP, about to read the word at `a` (R176). -/
  | putsp (a : Word)
  deriving DecidableEq, Repr

/-- What an address that memory does not list reads as: the reset contents (R37). -/
abbrev Memory.unlisted : Word := 0#16

/-- The listed words of memory, as (address, word) pairs in the canonical form of `Memory.wf`: the addressable unit is
one 16-bit word, and inside the core there is no byte (R31, R56). DESIGN CHOICE, safe: log entry 5. -/
abbrev Memory := List (Nat × Word)

/-- The state of one core instance (R20), with the console beside it (R35) and the instruction that has not finished
(R216). -/
structure State where
  /-- R0 to R7 (R21). -/
  regs : Vector Word 8
  /-- The program counter (R23). -/
  pc : Word
  /-- The condition flag (R25). -/
  cond : Cond
  /-- The memory array, 65536 words, KBSR and KBDR among them (R31, R33). -/
  mem : Memory
  /-- The run bit (R29). -/
  running : Bool
  /-- The fault status (R30). -/
  fault : Option FaultCause
  /-- The console, outside the core (R35). -/
  con : Console
  /-- The model's own field: the instruction that has not finished, if one has not. DESIGN CHOICE, safe: log entries 7
  and 9. -/
  unfinished : Option Unfinished
  deriving DecidableEq, Repr

/-- A console of which nothing is settled: every moment of its input is free, and nothing has been output. -/
def Console.untouched : Console :=
  { input := [], ended := false, clock := 0, output := [] }

/-- The machine right after reset (R37, R230). The console is outside the core and not reset (D23): here nothing of its
input is settled and its output is empty. DESIGN CHOICE, unsafe: log entry 8. -/
def State.reset : State where
  regs := Vector.replicate 8 0#16
  pc := Config.pcReset
  cond := .zero
  mem := []
  running := true
  fault := none
  con := Console.untouched
  unfinished := none

/-- What a snapshot carries: Mem, R0 to R7, PC and COND (R38, D27). -/
structure Snapshot where
  mem  : Memory
  regs : Vector Word 8
  pc   : Word
  cond : Cond
  deriving DecidableEq, Repr

/-- The Executor's states (R120). -/
inductive Phase where
  | running
  | halted
  | faulted
  deriving DecidableEq, Repr

/-- Why a step stops: for no reason, so there is no constructor. The core's own fatal failures are next states with
the fault register set (R201), and a run without end is a run of next states (R125). Safe: nothing is left out. -/
inductive Fault where
  deriving DecidableEq, Repr

/-- Why a step has no meaning. -/
inductive Refusal where
  /-- Raised by an arm of `exec` whose instruction has no meaning yet; no arm of this model does. Safe: nothing is
  claimed of such an instruction. -/
  | notModelled (mnemonic : String)
  deriving DecidableEq, Repr

/-- What `exec` and `step` answer. -/
abbrev Outcome := Host.Outcome State Fault Refusal

end Sys2Proof.Machine
end

