-- ==== Sys2Proof/Machine/Ops.lean ====
section
/-! DEFINITION. The primitives of spec/00_scope.md R9 over the state: registers, memory with the keyboard intercept,
the console channels, fetch, raising a fatal failure and trap entry. -/

namespace Sys2Proof.Machine

/-! ## Registers (R21, R23) -/

/-- `R[i]`: the last value written to register `i` (R21). -/
def State.getReg (s : State) (i : RegIdx) : Word :=
  s.regs[i.toNat]'(i.isLt)

/-- `R[i] <- v`; no register is hard-wired (R21). -/
def State.setReg (s : State) (i : RegIdx) (v : Word) : State :=
  { s with regs := s.regs.set i.toNat v i.isLt }

/-- `PC <- v` (R23). -/
def State.setPc (s : State) (v : Word) : State :=
  { s with pc := v }

/-! ## Stored memory (R31), kept in one canonical form -/

/-- The canonical form: addresses strictly rising, all inside the 65536 words, and no entry equal to what an unlisted
address reads as. Equal memories are then equal lists. -/
abbrev Memory.wf (m : Memory) : Prop :=
  m.Pairwise (fun c d => c.1 < d.1) ∧ ∀ c ∈ m, c.1 < 65536 ∧ c.2 ≠ Memory.unlisted

/-- `Mem[a]`: the stored word (R31). -/
def Memory.read : Memory → Word → Word
  | [], _ => Memory.unlisted
  | c :: m, a => if c.1 = a.toNat then c.2 else Memory.read m a

/-- The list without the entries at address `k`. -/
def Memory.erase (m : Memory) (k : Nat) : Memory :=
  m.filter (fun c => c.1 ≠ k)

/-- The list with `(k, v)` put before the first larger address. -/
def Memory.insert : Memory → Nat → Word → Memory
  | [], k, v => [(k, v)]
  | c :: m, k, v => if k < c.1 then (k, v) :: c :: m else c :: Memory.insert m k v

/-- `Mem[a] <- v` (R54): the entry at `a` is replaced, or removed where `v` is what an unlisted address reads as. -/
def Memory.write (m : Memory) (a v : Word) : Memory :=
  if v = Memory.unlisted then m.erase a.toNat else (m.erase a.toNat).insert a.toNat v

/-! ## The console channels (R65 to R69) -/

/-- The core looks at the console input once: what it offers, none where the input has ended, and the console after
that moment. The settled moments come first, then the end or the free ones (R35, R66, R67; log entry 6). -/
def Console.look (c : Console) : Option ConEvent × Console :=
  match c.input with
  | e :: rest => (some e, { c with input := rest })
  | [] =>
      if c.ended then (none, c)
      else (Config.conMoment c.clock,
        { c with clock := c.clock + 1, ended := (Config.conMoment c.clock).isNone })

/-- The console with the bytes appended to its output, in order (R68). -/
def Console.put (c : Console) (bs : List Byte) : Console :=
  { c with output := c.output ++ bs }

/-- The state beside this console. -/
def State.setCon (s : State) (c : Console) : State :=
  { s with con := c }

/-- The instruction that has not finished set or cleared (R216). -/
def State.setUnfinished (s : State) (u : Option Unfinished) : State :=
  { s with unfinished := u }

/-- The byte offered at a moment, if any; at the end of the input a poll finds none (R66, D8). -/
def offeredByte : Option ConEvent → Option Byte
  | some (.byte b) => some b
  | some .quiet => none
  | none => none

/-- `ConPoll()`: never waits; takes one moment of the console input and answers its byte, or none (R66). -/
def State.conPoll (s : State) : Option Byte × State :=
  (offeredByte s.con.look.1, s.setCon s.con.look.2)

/-- `ConPut(b)`: append `b`, untranslated (R68). -/
def State.conPut (s : State) (b : Byte) : State :=
  s.setCon (s.con.put [b])

/-- `ConPut` of each byte of a list in order (R175). -/
def State.conPutAll (s : State) (bs : List Byte) : State :=
  s.setCon (s.con.put bs)

/-- `ConFlush()`: no state of the core and no byte of the output changes (R69, D11). -/
def State.conFlush (s : State) : State :=
  s

/-! ## The memory interface (R50 to R54) -/

/-- `MemWrite(a, v)`: an unconditional store, 0xFE00 and 0xFE02 included (R54). -/
def State.memWrite (s : State) (a v : Word) : State :=
  { s with mem := s.mem.write a v }

/-- The side effect of a read of 0xFE00 (R51). Bits 14:0 of the status word are kept, as R52 decides (log entry 10);
the data word's upper byte is 0 (R33). -/
def State.pollKeyboard (s : State) : State :=
  match s.conPoll.1 with
  | some b =>
      (s.conPoll.2.memWrite Config.kbsr (s.mem.read Config.kbsr ||| Config.kbsrReady)).memWrite Config.kbdr
        (b.setWidth 16)
  | none => s.conPoll.2.memWrite Config.kbsr 0x0000#16

/-- The state a `MemRead(a)` leaves: only 0xFE00 has a side effect (R51). -/
def State.afterRead (s : State) (a : Word) : State :=
  if a = Config.kbsr then s.pollKeyboard else s

/-- `MemRead(a)`: the word, read after the side effect, and the state it leaves (R51). Fetches, loads, pointer reads,
string scans and the host all read through it (R50, R53). -/
def State.memRead (s : State) (a : Word) : Word × State :=
  ((s.afterRead a).mem.read a, s.afterRead a)

/-- The fetch: `MemRead` at the old PC, then PC incremented modulo 65536 (R121). -/
def State.fetch (s : State) : Word × State :=
  ((s.memRead s.pc).1, (s.memRead s.pc).2.setPc (s.pc + 1))

/-! ## Fatal failures and trap entry (R201, R207) -/

/-- `raise F(info)`: set the fault status and end the cycle; nothing is saved, `running` stays as it is and nothing
but a reset clears the status (R201, R207). There is no return from it: RTI is itself a cause (R208). -/
def State.raise (s : State) (c : FaultCause) : State :=
  { s with fault := some c }

/-- The return address saved in R7 by JSR, JSRR and every TRAP; the flag is not touched (R144, R146, R207). -/
def State.link (s : State) : State :=
  s.setReg 7 s.pc

/-- The Executor's state; FAULTED is told from HALTED by the fault status (R120). -/
def State.phase (s : State) : Phase :=
  if s.fault.isSome then .faulted else if s.running then .running else .halted

end Sys2Proof.Machine
end

