-- ==== Sys2Proof/Machine/Flags.lean ====
section
/-! DEFINITION. The condition flag: how it is computed and how BR reads it (spec/10_state.md R25 to R28). -/

namespace Sys2Proof.Machine

/-- `isNegative(v, N)`: bit `N-1` of `v` (R8); "negative" means nothing else (R7). -/
def isNegative {n : Nat} (v : BitVec n) : Bool :=
  v.getLsbD (n - 1)

/-- The flag of a value: ZERO, else NEGATIVE where bit 15 is set, else POSITIVE (R26). -/
def Cond.ofWord (v : Word) : Cond :=
  if v = 0x0000#16 then .zero else if isNegative v then .negative else .positive

/-- `setcc(i)`: recompute the flag from the current value of `R[i]` (R26). -/
def State.setcc (s : State) (i : RegIdx) : State :=
  { s with cond := Cond.ofWord (s.getReg i) }

/-- `R[i] <- v` and then `setcc(i)`: how the seven flag-writing instructions end (R28). -/
def State.writeResult (s : State) (i : RegIdx) (v : Word) : State :=
  (s.setReg i v).setcc i

/-- `flagbits(COND)` (R27). PRESUMED, unsafe: the places of ZERO and POSITIVE are decision D3 (log entry 11). -/
def Cond.flagbits : Cond → BitVec 3
  | .negative => 0b100#3
  | .zero     => 0b010#3
  | .positive => 0b001#3

/-- Whether BR with this mask is taken (R141). -/
def branchTaken (nzp : BitVec 3) (c : Cond) : Bool :=
  nzp &&& c.flagbits ≠ 0#3

end Sys2Proof.Machine
end

