-- ==== Sys2Proof/Machine/Operands.lean ====
section
/-! DEFINITION. Operand forms and effective addresses (spec/30_encoding.md R92, spec/43_load_store.md R150). PC is the
incremented PC in all of them (R121). -/

namespace Sys2Proof.Machine

/-- `sext_N(v)` (R8). -/
def sext {n : Nat} (v : BitVec n) : Word :=
  v.signExtend 16

/-- `zext_16(b)` (R8). -/
def zext (b : Byte) : Word :=
  b.setWidth 16

/-- The PC-relative address of BR, LD, LDI, LEA, ST and STI: `PC + sext_9` (R92, R150). -/
def State.pcRel9 (s : State) (off : BitVec 9) : Word :=
  s.pc + sext off

/-- The PC-relative target of JSR: `PC + sext_11` (R92, R144). -/
def State.pcRel11 (s : State) (off : BitVec 11) : Word :=
  s.pc + sext off

/-- The base-plus-offset address of LDR and STR: `R[BaseR] + sext_6` (R92, R150). -/
def State.baseOff6 (s : State) (base : RegIdx) (off : BitVec 6) : Word :=
  s.getReg base + sext off

/-- Bits 7:0 of a word. -/
def lowByte (w : Word) : Byte :=
  w.extractLsb' 0 8

/-- Bits 15:8 of a word. -/
def highByte (w : Word) : Byte :=
  w.extractLsb' 8 8

end Sys2Proof.Machine
end

