-- ==== Sys2Proof/Machine/Control.lean ====
section
/-! DEFINITION. Control transfer (spec/42_control.md R140 to R146). PC is the incremented PC; any word is a legal
target. -/

namespace Sys2Proof.Machine

/-- BR (R141). -/
def execBr (nzp : BitVec 3) (off : BitVec 9) (s : State) : Outcome :=
  .next (if branchTaken nzp s.cond then s.setPc (s.pcRel9 off) else s)

/-- A jump through a register: `PC <- R[base]` (R142). -/
def State.jumpReg (s : State) (base : RegIdx) : State :=
  s.setPc (s.getReg base)

/-- JMP (R142). -/
def execJmp (base : RegIdx) (s : State) : Outcome :=
  .next (s.jumpReg base)

/-- RET is JMP with base register 7 (R143). -/
def execRet (s : State) : Outcome :=
  .next (s.jumpReg 7)

/-- JSR: the offset is added to the same incremented PC that R7 receives (R144). -/
def execJsr (off : BitVec 11) (s : State) : Outcome :=
  .next (s.link.setPc (s.pcRel11 off))

/-- JSRR: the base register is read AFTER R7 has been written, so JSRR R7 falls through (R145, D15; log entry 12). -/
def execJsrr (base : RegIdx) (s : State) : Outcome :=
  .next (s.link.jumpReg base)

end Sys2Proof.Machine
end

