-- ==== Sys2Proof/Machine/LoadStore.lean ====
section
/-! DEFINITION. Loads, LEA and stores (spec/43_load_store.md R150 to R158). Every read is a `MemRead`, so one of 0xFE00
polls the keyboard. -/

namespace Sys2Proof.Machine

/-- The end of a load: `R[dr] <- MemRead(a)` and then `setcc(dr)` (R150). -/
def State.loadInto (s : State) (dr : RegIdx) (a : Word) : State :=
  (s.memRead a).2.writeResult dr (s.memRead a).1

/-- LD (R151). -/
def execLd (dr : RegIdx) (off : BitVec 9) (s : State) : Outcome :=
  .next (s.loadInto dr (s.pcRel9 off))

/-- LDI: the pointer is read first, then the word it points at (R152). -/
def execLdi (dr : RegIdx) (off : BitVec 9) (s : State) : Outcome :=
  .next ((s.memRead (s.pcRel9 off)).2.loadInto dr (s.memRead (s.pcRel9 off)).1)

/-- LDR: the base is read before DR is written (R153). -/
def execLdr (dr base : RegIdx) (off : BitVec 6) (s : State) : Outcome :=
  .next (s.loadInto dr (s.baseOff6 base off))

/-- LEA: no memory access, and the flag IS recomputed (R154). -/
def execLea (dr : RegIdx) (off : BitVec 9) (s : State) : Outcome :=
  .next (s.writeResult dr (s.pcRel9 off))

/-- ST (R156). -/
def execSt (sr : RegIdx) (off : BitVec 9) (s : State) : Outcome :=
  .next (s.memWrite (s.pcRel9 off) (s.getReg sr))

/-- STI: one read, which polls if the pointer word is at 0xFE00, then one write (R157). -/
def execSti (sr : RegIdx) (off : BitVec 9) (s : State) : Outcome :=
  .next ((s.memRead (s.pcRel9 off)).2.memWrite (s.memRead (s.pcRel9 off)).1 (s.getReg sr))

/-- STR (R158). -/
def execStr (sr base : RegIdx) (off : BitVec 6) (s : State) : Outcome :=
  .next (s.memWrite (s.baseOff6 base off) (s.getReg sr))

end Sys2Proof.Machine
end

