-- ==== Sys2Proof/Machine/Operate.lean ====
section
/-! DEFINITION. The operate instructions ADD, AND and NOT (spec/41_operate.md R130 to R135). The sources are read
before DR is written, so DR may be a source too. -/

namespace Sys2Proof.Machine

/-- ADD, register form (R131). -/
def execAddReg (dr sr1 sr2 : RegIdx) (s : State) : Outcome :=
  .next (s.writeResult dr (s.getReg sr1 + s.getReg sr2))

/-- ADD, immediate form (R132). -/
def execAddImm (dr sr1 : RegIdx) (imm : BitVec 5) (s : State) : Outcome :=
  .next (s.writeResult dr (s.getReg sr1 + sext imm))

/-- AND, register form (R133). -/
def execAndReg (dr sr1 sr2 : RegIdx) (s : State) : Outcome :=
  .next (s.writeResult dr (s.getReg sr1 &&& s.getReg sr2))

/-- AND, immediate form: the immediate is sign-extended before the AND (R134). -/
def execAndImm (dr sr1 : RegIdx) (imm : BitVec 5) (s : State) : Outcome :=
  .next (s.writeResult dr (s.getReg sr1 &&& sext imm))

/-- NOT: all 16 bits inverted (R135). -/
def execNot (dr sr : RegIdx) (s : State) : Outcome :=
  .next (s.writeResult dr (~~~ s.getReg sr))

end Sys2Proof.Machine
end

