-- ==== Sys2Proof/Machine/Console.lean ====
section
/-! DEFINITION. The six trap services as operations of the dispatcher (spec/44_trap_system.md R171 to R179). R7 has
been written before any of them starts (R170). A service that waits, or scans past the keyboard words, leaves the
instruction unfinished, and `goOn` takes it up again. -/

namespace Sys2Proof.Machine

/-- What GETC and IN do with the byte they were given: IN echoes it, and R0 receives it with bits 15:8 zero; the flag
is not written (R172, R175). -/
def State.deliver (s : State) : BlockedRead → Byte → State
  | .getc, c => s.setReg 0 (zext c)
  | .inp, c => ((s.conPut c).conFlush).setReg 0 (zext c)

/-- `ConGet()` and what follows it in GETC and IN (R67, R172, R175), at one moment of the console: with a byte the
service completes; at the end of the input it raises `ConsoleEndOfInput`; at a quiet moment the core goes on waiting,
nothing else changing. -/
def State.blockingRead (s : State) (r : BlockedRead) : State :=
  match s.con.look.1 with
  | some (.byte c) => ((s.setCon s.con.look.2).setUnfinished none).deliver r c
  | some .quiet => (s.setCon s.con.look.2).setUnfinished (some (.reading r))
  | none => ((s.setCon s.con.look.2).setUnfinished none).raise .consoleEndOfInput

/-- GETC: no echo, no output (R172). -/
def State.serveGetc (s : State) : State :=
  s.blockingRead .getc

/-- OUT: bits 7:0 of R0 (R173). -/
def State.serveOut (s : State) : State :=
  (s.conPut (lowByte (s.getReg 0))).conFlush

/-- IN: the prompt is delivered before the core waits (R175, R69). -/
def State.serveIn (s : State) : State :=
  ((s.conPutAll Config.inPrompt).conFlush).blockingRead .inp

/-- HALT: `running <- false`; nothing is printed (R177). -/
def State.serveHalt (s : State) : State :=
  { s with running := false }

/-- The words from `a` up to and with the next 0xFE00: as many as one step of a string scan reads. Whether a scan goes
past a poll is the console's answer, so a scan without a terminator is a run without end and not one step (R125 d,
R250). DESIGN CHOICE, safe: log entry 9. -/
def wordsToPoll (a : Word) : Nat :=
  (Config.kbsr - a).toNat + 1

/-- The loop of PUTS (R174), from address `a`, for at most the given number of words; if they do not suffice it is left
unfinished at the next address. -/
def putsScan : Nat → State → Word → State
  | 0, s, a => s.setUnfinished (some (.puts a))
  | n + 1, s, a =>
      if (s.memRead a).1 = 0x0000#16 then (s.memRead a).2.conFlush.setUnfinished none
      else putsScan n ((s.memRead a).2.conPut (lowByte (s.memRead a).1)) (a + 1)

/-- The loop of PUTSP (R176): a zero low byte ends it at once, a zero high byte after the low byte is printed. -/
def putspScan : Nat → State → Word → State
  | 0, s, a => s.setUnfinished (some (.putsp a))
  | n + 1, s, a =>
      if lowByte (s.memRead a).1 = 0x00#8 then (s.memRead a).2.conFlush.setUnfinished none
      else if highByte (s.memRead a).1 = 0x00#8 then
        ((s.memRead a).2.conPut (lowByte (s.memRead a).1)).conFlush.setUnfinished none
      else putspScan n
        (((s.memRead a).2.conPut (lowByte (s.memRead a).1)).conPut (highByte (s.memRead a).1)) (a + 1)

/-- One step of PUTS, from address `a`. -/
def State.putsFrom (s : State) (a : Word) : State :=
  putsScan (wordsToPoll a) s a

/-- One step of PUTSP, from address `a`. -/
def State.putspFrom (s : State) (a : Word) : State :=
  putspScan (wordsToPoll a) s a

/-- PUTS: one character in the low byte of each word, up to the first zero word; R0 is not changed (R174). -/
def State.servePuts (s : State) : State :=
  s.putsFrom (s.getReg 0)

/-- PUTSP: two characters to a word, low byte first; R0 is not changed (R176). -/
def State.servePutsp (s : State) : State :=
  s.putspFrom (s.getReg 0)

/-- An instruction that has not finished, taken up where it stands (R216). -/
def State.goOn (s : State) : Unfinished → State
  | .reading r => s.blockingRead r
  | .puts a => s.putsFrom a
  | .putsp a => s.putspFrom a

end Sys2Proof.Machine
end

