-- ==== Sys2Proof/Machine/Trap.lean ====
section
/-! DEFINITION. TRAP, the names of its six services, RTI and the reserved opcode (spec/44_trap_system.md R170 to
R183). A trap is served inside its own cycle: no vector table, no jump, no change of PC (R171). -/

namespace Sys2Proof.Machine

/-- TRAP: R7 is written for every vector, then the service runs or `BadTrapVector` is raised (R170, R178). -/
def execTrap (v : BitVec 8) (s : State) : Outcome :=
  if v = trapGetc then .next s.link.serveGetc
  else if v = trapOut then .next s.link.serveOut
  else if v = trapPuts then .next s.link.servePuts
  else if v = trapIn then .next s.link.serveIn
  else if v = trapPutsp then .next s.link.servePutsp
  else if v = trapHalt then .next s.link.serveHalt
  else .next (s.link.raise (.badTrapVector v))

/-- GETC (R170, R172). -/
def execGetc (s : State) : Outcome :=
  .next s.link.serveGetc

/-- OUT (R170, R173). -/
def execOut (s : State) : Outcome :=
  .next s.link.serveOut

/-- PUTS (R170, R174). -/
def execPuts (s : State) : Outcome :=
  .next s.link.servePuts

/-- IN (R170, R175). -/
def execIn (s : State) : Outcome :=
  .next s.link.serveIn

/-- PUTSP (R170, R176). -/
def execPutsp (s : State) : Outcome :=
  .next s.link.servePutsp

/-- HALT (R170, R177). -/
def execHalt (s : State) : Outcome :=
  .next s.link.serveHalt

/-- RTI raises `RtiNotImplemented` (R181). -/
def execRti (s : State) : Outcome :=
  .next (s.raise .rtiNotImplemented)

/-- The reserved opcode raises `ReservedOpcode` (R182). -/
def execRes (s : State) : Outcome :=
  .next (s.raise .reservedOpcode)

end Sys2Proof.Machine
end

