-- ==== Sys2Proof/Machine/Cycle.lean ====
section
/-! DEFINITION. The fetch-decode-execute cycle and when one is executed (spec/40_cycle.md R120 to R124). -/

namespace Sys2Proof.Machine

/-- One whole cycle: fetch at PC, increment PC, decode, execute (R121). -/
def cycle (s : State) : Outcome :=
  exec (decode s.fetch.1) s.fetch.2

/-- What the core does next. A cycle is executed only in RUNNING; in HALTED and FAULTED nothing changes any more
(R120, R124, R201; log entry 13). An instruction that has not finished (R216) goes on before the next is fetched. -/
def advance (s : State) : Outcome :=
  match s.phase with
  | .halted => .next s
  | .faulted => .next s
  | .running =>
      match s.unfinished with
      | some u => .next (s.goOn u)
      | none => cycle s

/-- The address the host's probe fetches at: PC, but for 0xFE00, where a fetch reads the keyboard's answer and not a
word stored there (R53). -/
def probePc (s : State) : Word :=
  if s.pc = Config.kbsr then Config.pcReset else s.pc

/-- `s` made ready to fetch a word at its next step: RUNNING, with no unfinished instruction. -/
def readyToFetch (s : State) : State :=
  { s with running := true, fault := none, unfinished := none, pc := probePc s }

end Sys2Proof.Machine
end

