-- ==== Sys2Proof/Machine/Step.lean ====
section
/-! DEFINITION. The step, and where the host's probe puts an instruction. -/

namespace Sys2Proof.Machine

/-- One step of the core (R120, R121). -/
def step (s : State) : Host.Outcome State Fault Refusal :=
  Sys2Proof.Machine.advance s

/-- `s` with the instruction word placed where `step` fetches next (log entry 14). -/
def State.withFetchWord (s : State) (nbits w : Nat) : State :=
  (readyToFetch s).memWrite (readyToFetch s).pc (tableWord nbits w)

end Sys2Proof.Machine
end

