-- ==== Sys2Proof/Machine/HostOps.lean ====
section
/-! DEFINITION. What the host and the console can do to the core from outside (spec/70_reset_and_hazards.md R235 to
R243, spec/20_memory.md R66 and R67). -/

namespace Sys2Proof.Machine

/-- The host acts between cycles only: never while an instruction has not finished (R242, R122, R216). -/
def State.hostMayAct (s : State) : Bool :=
  s.unfinished.isNone

/-- An act of the host on the core. Inside a cycle the host has no move, so there is none (R235, R242, U15). -/
def State.byHost {α : Type} (s : State) (act : State → α) : Option α :=
  if s.hostMayAct then some (act s) else none

/-- The big-endian words of a byte stream; an odd last byte makes no word (R236). -/
def imageWords : List Byte → List Word
  | hi :: lo :: rest => (hi ++ lo) :: imageWords rest
  | _ => []

/-- Plain stores of the words at consecutive addresses, wrapping past 0xFFFF (R236, D14). -/
def storeWords : State → Word → List Word → State
  | s, _, [] => s
  | s, a, w :: ws => storeWords (s.memWrite a w) (a + 1) ws

/-- What `load` tells its caller (R236). -/
inductive LoadStatus where
  | ok
  | ioError
  deriving DecidableEq, Repr

/-- The status of a load: a stream without an origin word, or with an odd last byte, is an error (D20). -/
def loadStatus (bytes : List Byte) : LoadStatus :=
  if bytes.length ≥ 2 ∧ bytes.length % 2 = 0 then .ok else .ioError

/-- What a load does to memory: the first word is the origin, the others are stored from there; PC, the registers, the
flag and `running` do not change, and words stored before an error stay (R236). -/
def State.storeImage (s : State) (bytes : List Byte) : State :=
  match imageWords bytes with
  | [] => s
  | origin :: ws => storeWords s origin ws

/-- `load` (R236). -/
def State.load (s : State) (bytes : List Byte) : Option (LoadStatus × State) :=
  s.byHost fun s => (loadStatus bytes, s.storeImage bytes)

/-- `readMemory(address)` is `MemRead`, keyboard side effect included (R238). -/
def State.readMemory (s : State) (a : Word) : Option (Word × State) :=
  s.byHost fun s => s.memRead a

/-- `snapshot`: a pure copy that does not poll (R239). -/
def State.snapshot (s : State) : Option Snapshot :=
  s.byHost fun s => { mem := s.mem, regs := s.regs, pc := s.pc, cond := s.cond }

/-- `restore`: a new instance with the snapshot's memory and registers, `running` false and no fault (R240, D19). A
snapshot carries no console (R38), and the spec does not say which console, input and output, the new instance has:
it is the one its caller gives it. DESIGN CHOICE, safe: log entry 23. -/
def restore (k : Snapshot) (con : Console) : State :=
  { regs := k.regs, pc := k.pc, cond := k.cond, mem := k.mem, running := false, fault := none, con := con,
    unfinished := none }

/-- `resume`: `running <- true` and nothing else (R241). -/
def State.resume (s : State) : Option State :=
  s.byHost fun s => { s with running := true }

/-- The console settles one more moment of its input, unless that has ended; it may do so at any time, also while the
core waits (R35, R66). -/
def State.consoleOffer (s : State) (e : ConEvent) : State :=
  if s.con.ended then s else s.setCon { s.con with input := s.con.input ++ [e] }

/-- The console ends its input after the settled moments (R67). -/
def State.consoleClose (s : State) : State :=
  s.setCon { s.con with ended := true }

/-- The code of a fault cause (R202). -/
def FaultCause.code : FaultCause → Nat
  | .rtiNotImplemented => 1
  | .reservedOpcode => 2
  | .badTrapVector _ => 3
  | .consoleEndOfInput => 4

/-- The fault code the host reads: 0 for none, else the cause's (R243). -/
def State.faultCode (s : State) : Nat :=
  match s.fault with
  | none => 0
  | some c => c.code

/-- How a `run` ends (R123, R237). -/
inductive RunEnd where
  /-- The core is HALTED and `run` returns. -/
  | returned (s : State)
  /-- The core is FAULTED, the loop is aborted and the host is told the cause. -/
  | aborted (c : FaultCause) (s : State)
  /-- Still RUNNING after the given number of steps; the hardware has no such limit (R123). -/
  | stillRunning (s : State)
  /-- A step of the model stopped. -/
  | stopped (r : Fault)
  /-- A step of the model was refused. -/
  | refused (r : Refusal)
  deriving DecidableEq, Repr

/-- How a `run` stands at a state in which no step is taken (R123, R237). -/
def State.runEnd (s : State) : RunEnd :=
  match s.fault with
  | some c => .aborted c s
  | none => if s.running then .stillRunning s else .returned s

/-- The run loop, looked at for at most `k` steps: cycles are executed only while the core is RUNNING (R123, R237). -/
def runFor : Nat → State → RunEnd
  | 0, s => s.runEnd
  | k + 1, s =>
      match s.phase with
      | .running =>
          match advance s with
          | .next t => runFor k t
          | .fault r => .stopped r
          | .refused r => .refused r
      | .halted => s.runEnd
      | .faulted => s.runEnd

/-- `run`, looked at for at most `k` steps: the host starts it between cycles (R237, R242). -/
def State.run (s : State) (k : Nat) : Option RunEnd :=
  s.byHost (runFor k)

end Sys2Proof.Machine
end

