-- ==== Sys2Proof/WellFormed.lean ====
section
/-! DEFINITION. Which instruction terms are the ones the decoder produces. Field widths are in the types, so the only
checks keep one term per word: a JMP through R7 is written RET and a TRAP with a served vector is written with its
service's name (R101). -/

namespace Sys2Proof

/-- The six served vectors 0x20 to 0x25, read as a range (R97). -/
abbrev ServedVector (v : BitVec 8) : Prop := 0x20#8 ≤ v ∧ v ≤ 0x25#8

/-- The term is the one name the decoder gives its word. -/
def WellFormed : Instr → Bool
  | .jmp base => decide (base ≠ 7#3)
  | .trap v => decide (¬ ServedVector v)
  | .br _ _ | .addReg _ _ _ | .addImm _ _ _ | .ld _ _ | .st _ _ | .jsrr _ | .jsr _ | .andReg _ _ _ | .andImm _ _ _
  | .ldr _ _ _ | .str _ _ _ | .rti | .not _ _ | .ldi _ _ | .sti _ _ | .res | .lea _ _ | .ret | .getc | .out | .puts
  | .inp | .putsp | .halt => true

end Sys2Proof
end

