-- ==== Sys2Proof/Safety.lean ====
section
/-! DEFINITION. The terms statements are made in: what a state may look like, how a run ends well, what an instruction
leaves unchanged, and the string services' loops as relations. -/

namespace Sys2Proof.Safety

open Sys2Proof.Machine

/-- The core ended normally: HALTED and not FAULTED (R124, R252). -/
def NormalEnd (s : State) : Prop :=
  s.running = false ∧ s.fault = none

/-- What a fault record can be: a recorded vector is not a served one (R178, R202). Nothing is said of registers in
FAULTED (D5, U2). -/
def FaultRecordOk : FaultCause → Prop
  | .rtiNotImplemented => True
  | .reservedOpcode => True
  | .badTrapVector v => ¬ ServedVector v
  | .consoleEndOfInput => True

/-- The invariant every step keeps. -/
structure Consistent (s : State) : Prop where
  /-- Memory has its canonical form. -/
  mem : s.mem.wf
  /-- A core inside an unfinished service is RUNNING and R7 holds its return address (R67, R170). -/
  unfinished : s.unfinished.isSome → s.running = true ∧ s.fault = none ∧ s.getReg 7 = s.pc
  /-- A fault leaves `running` true (R201), and its record is one an instruction can leave. -/
  fault : ∀ c, s.fault = some c → s.running = true ∧ FaultRecordOk c

/-! ## Frames -/

/-- Every register outside `ds` is unchanged. -/
def RegsFrame (s t : State) (ds : List RegIdx) : Prop :=
  ∀ i, i ∉ ds → t.getReg i = s.getReg i

/-- Every word of memory outside `ws` reads as before. -/
def MemFrame (s t : State) (ws : List Word) : Prop :=
  ∀ a, a ∉ ws → t.mem.read a = s.mem.read a

/-- The console is unchanged. -/
def ConsoleFrame (s t : State) : Prop :=
  t.con = s.con

/-- The run bit, the fault status and the unfinished instruction are unchanged. -/
def StatusFrame (s t : State) : Prop :=
  t.running = s.running ∧ t.fault = s.fault ∧ t.unfinished = s.unfinished

/-- The console can only go forward: settled moments are taken from the front, free moments in order, an ended input
stays ended, and output is added at the end (R35, R66, R68). -/
structure Advances (c d : Console) : Prop where
  input : ∃ taken, c.input = taken ++ d.input
  ended : c.ended = true → d.ended = true
  clock : c.clock ≤ d.clock
  output : ∃ printed, d.output = c.output ++ printed

/-- `t` is `s` with `R[dr]` holding `v` and the flag recomputed from it, and nothing else changed. -/
def WritesResult (s t : State) (dr : RegIdx) (v : Word) : Prop :=
  t.getReg dr = v ∧ t.cond = Cond.ofWord v ∧ RegsFrame s t [dr] ∧ t.pc = s.pc ∧ MemFrame s t [] ∧
    ConsoleFrame s t ∧ StatusFrame s t

/-- `t` is `s` after the memory access that took `s` to `r` and then a load of `v` into `R[dr]`: the flag recomputed,
memory and the console input as `r` has them, and nothing else changed. -/
def LoadsResult (s r t : State) (dr : RegIdx) (v : Word) : Prop :=
  t.getReg dr = v ∧ t.cond = Cond.ofWord v ∧ RegsFrame s t [dr] ∧ t.pc = s.pc ∧ MemFrame r t [] ∧
    MemFrame s t [Config.kbsr, Config.kbdr] ∧ ConsoleFrame r t ∧ t.con.output = s.con.output ∧ StatusFrame s t

/-- `t` is `s` with the word at `a` holding `v`, and nothing else changed. -/
def StoresWord (s t : State) (a v : Word) : Prop :=
  t.mem.read a = v ∧ MemFrame s t [a] ∧ RegsFrame s t [] ∧ t.pc = s.pc ∧ t.cond = s.cond ∧ ConsoleFrame s t ∧
    StatusFrame s t

/-- `t` is `s` with PC holding `target`, the registers outside `ds` unchanged, and nothing else changed. -/
def JumpsTo (s t : State) (target : Word) (ds : List RegIdx) : Prop :=
  t.pc = target ∧ RegsFrame s t ds ∧ t.cond = s.cond ∧ MemFrame s t [] ∧ ConsoleFrame s t ∧ StatusFrame s t

/-- `t` is `s` with the fault status holding `c`, the registers outside `ds` unchanged, and nothing else changed but
what is said beside it of the console and the unfinished instruction. What registers and memory hold in FAULTED is
decision D5 (log entry 15). -/
def Raises (s t : State) (c : FaultCause) (ds : List RegIdx) : Prop :=
  t.fault = some c ∧ t.running = s.running ∧ RegsFrame s t ds ∧ t.pc = s.pc ∧ t.cond = s.cond ∧ MemFrame s t []

/-- What every TRAP leaves: R7 holds the address of the TRAP + 1, the registers outside R7 and `ds` are unchanged, and
so are PC and the flag (R170, R179). -/
def TrapEntered (s t : State) (ds : List RegIdx) : Prop :=
  t.getReg 7 = s.pc ∧ RegsFrame s t (7 :: ds) ∧ t.pc = s.pc ∧ t.cond = s.cond

/-! ## The string services' loops (R174, R176) -/

/-- The loop of PUTS, from address `a`, reads the given number of words, none of them zero, and prints each. -/
inductive PutsPrints : Nat → State → Word → State → Prop where
  | nothing {s : State} {a : Word} : PutsPrints 0 s a s
  | word {n : Nat} {s t : State} {a : Word} : (s.memRead a).1 ≠ 0x0000#16 →
      PutsPrints n ((s.memRead a).2.conPut (lowByte (s.memRead a).1)) (a + 1) t → PutsPrints (n + 1) s a t

/-- The loop of PUTS, from address `a`, prints `n` words and ends at the zero word after them. -/
def PutsEnds (n : Nat) (s : State) (a : Word) (t : State) : Prop :=
  ∃ u, PutsPrints n s a u ∧ (u.memRead (a + BitVec.ofNat 16 n)).1 = 0x0000#16 ∧
    t = (u.memRead (a + BitVec.ofNat 16 n)).2.setUnfinished none

/-- The loop of PUTSP, from address `a`, reads the given number of words, no byte of them zero, and prints both bytes
of each. -/
inductive PutspPrints : Nat → State → Word → State → Prop where
  | nothing {s : State} {a : Word} : PutspPrints 0 s a s
  | word {n : Nat} {s t : State} {a : Word} : lowByte (s.memRead a).1 ≠ 0x00#8 → highByte (s.memRead a).1 ≠ 0x00#8 →
      PutspPrints n (((s.memRead a).2.conPut (lowByte (s.memRead a).1)).conPut (highByte (s.memRead a).1)) (a + 1) t →
      PutspPrints (n + 1) s a t

/-- The loop of PUTSP, from address `a`, prints `n` words and ends at a zero byte of the one after them: a low one at
once, a high one after the low byte is printed. -/
def PutspEnds (n : Nat) (s : State) (a : Word) (t : State) : Prop :=
  ∃ u, PutspPrints n s a u ∧
    (let p := u.memRead (a + BitVec.ofNat 16 n)
     (lowByte p.1 = 0x00#8 ∧ t = p.2.setUnfinished none) ∨
     (lowByte p.1 ≠ 0x00#8 ∧ highByte p.1 = 0x00#8 ∧ t = (p.2.conPut (lowByte p.1)).setUnfinished none))

/-- One step of PUTS, from address `a`: its loop to a zero word that stands no later than the next 0xFE00; or, where
every word up to and with that one is read, not zero and printed, the instruction left unfinished at 0xFE01 (log entry
9). -/
def PutsStep (s : State) (a : Word) (t : State) : Prop :=
  (∃ n, n < wordsToPoll a ∧ PutsEnds n s a t) ∨
    ∃ u, PutsPrints (wordsToPoll a) s a u ∧ t = u.setUnfinished (some (.puts 0xFE01#16))

/-- One step of PUTSP, from address `a`, likewise: a word with a zero byte takes the place of a zero word. -/
def PutspStep (s : State) (a : Word) (t : State) : Prop :=
  (∃ n, n < wordsToPoll a ∧ PutspEnds n s a t) ∨
    ∃ u, PutspPrints (wordsToPoll a) s a u ∧ t = u.setUnfinished (some (.putsp 0xFE01#16))

/-- The state after `k` reads of the keyboard status word (R53). -/
def statusReads : Nat → State → State
  | 0, s => s
  | k + 1, s => statusReads k (s.memRead Config.kbsr).2

/-! ## Kinds of instruction, over all constructors -/

/-- The seven instructions that write the flag, with their DR (R28). -/
def flagDest : Instr → Option RegIdx
  | .addReg dr _ _ | .addImm dr _ _ | .andReg dr _ _ | .andImm dr _ _ | .not dr _ | .ld dr _ | .ldi dr _
  | .ldr dr _ _ | .lea dr _ => some dr
  | .br _ _ | .st _ _ | .jsrr _ | .jsr _ | .str _ _ _ | .rti | .sti _ _ | .jmp _ | .res | .trap _ | .ret | .getc
  | .out | .puts | .inp | .putsp | .halt => none

/-- The vector of a TRAP, under its own name or a service's (R97, R101). -/
def trapVector : Instr → Option (BitVec 8)
  | .trap v => some v
  | .getc => some 0x20#8
  | .out => some 0x21#8
  | .puts => some 0x22#8
  | .inp => some 0x23#8
  | .putsp => some 0x24#8
  | .halt => some 0x25#8
  | .br _ _ | .addReg _ _ _ | .addImm _ _ _ | .ld _ _ | .st _ _ | .jsrr _ | .jsr _ | .andReg _ _ _ | .andImm _ _ _
  | .ldr _ _ _ | .str _ _ _ | .rti | .not _ _ | .ldi _ _ | .sti _ _ | .jmp _ | .res | .lea _ _ | .ret => none

/-- PC after the instruction, from the state after the fetch: the table of R24. -/
def pcAfter (s : State) : Instr → Word
  | .br nzp off => if nzp &&& s.cond.flagbits ≠ 0#3 then s.pc + sext off else s.pc
  | .jmp base => s.getReg base
  | .ret => s.getReg 7
  | .jsr off => s.pc + sext off
  | .jsrr base => (s.setReg 7 s.pc).getReg base
  | .addReg _ _ _ | .addImm _ _ _ | .ld _ _ | .st _ _ | .andReg _ _ _ | .andImm _ _ _ | .ldr _ _ _ | .str _ _ _
  | .rti | .not _ _ | .ldi _ _ | .sti _ _ | .res | .lea _ _ | .trap _ | .getc | .out | .puts | .inp | .putsp
  | .halt => s.pc

/-- The registers an instruction may write: the table of R22. -/
def regsWritten : Instr → List RegIdx
  | .addReg dr _ _ | .addImm dr _ _ | .andReg dr _ _ | .andImm dr _ _ | .not dr _ | .ld dr _ | .ldi dr _
  | .ldr dr _ _ | .lea dr _ => [dr]
  | .jsr _ | .jsrr _ | .out | .puts | .putsp | .halt => [7]
  | .getc | .inp => [7, 0]
  | .trap v => if v = trapGetc ∨ v = trapIn then [7, 0] else [7]
  | .br _ _ | .jmp _ | .ret | .st _ _ | .sti _ _ | .str _ _ _ | .rti | .res => []

/-- The address an instruction stores to, for the three that store (R55). -/
def storeAddr (s : State) : Instr → Option Word
  | .st _ off => some (s.pc + sext off)
  | .sti _ off => some (s.memRead (s.pc + sext off)).1
  | .str _ base off => some (s.getReg base + sext off)
  | .br _ _ | .addReg _ _ _ | .addImm _ _ _ | .ld _ _ | .jsrr _ | .jsr _ | .andReg _ _ _ | .andImm _ _ _ | .ldr _ _ _
  | .rti | .not _ _ | .ldi _ _ | .jmp _ | .res | .lea _ _ | .trap _ | .ret | .getc | .out | .puts | .inp | .putsp
  | .halt => none

/-- PUTS reads 0xFE00: no word from the one R0 points at up to there is its zero word (R53, R174). -/
def PutsPolls (s : State) : Prop :=
  ∀ k, k < (Config.kbsr - s.getReg 0).toNat → s.mem.read (s.getReg 0 + BitVec.ofNat 16 k) ≠ 0x0000#16

/-- PUTSP reads 0xFE00: no byte of the words from the one R0 points at up to there is zero (R53, R176). -/
def PutspPolls (s : State) : Prop :=
  ∀ k, k < (Config.kbsr - s.getReg 0).toNat →
    lowByte (s.mem.read (s.getReg 0 + BitVec.ofNat 16 k)) ≠ 0x00#8 ∧
      highByte (s.mem.read (s.getReg 0 + BitVec.ofNat 16 k)) ≠ 0x00#8

/-- The instruction makes a `MemRead` of 0xFE00, besides its own fetch: the loads, the pointer reads and the string
scans (R50, R53). -/
def Polls (s : State) : Instr → Prop
  | .ld _ off => s.pc + sext off = Config.kbsr
  | .ldi _ off => s.pc + sext off = Config.kbsr ∨ (s.memRead (s.pc + sext off)).1 = Config.kbsr
  | .ldr _ base off => s.getReg base + sext off = Config.kbsr
  | .sti _ off => s.pc + sext off = Config.kbsr
  | .puts => PutsPolls s
  | .putsp => PutspPolls s
  | .trap v => (v = trapPuts ∧ PutsPolls s) ∨ (v = trapPutsp ∧ PutspPolls s)
  | .br _ _ | .addReg _ _ _ | .addImm _ _ _ | .st _ _ | .jsrr _ | .jsr _ | .andReg _ _ _ | .andImm _ _ _ | .str _ _ _
  | .rti | .not _ _ | .jmp _ | .res | .lea _ _ | .ret | .getc | .out | .inp | .halt => False

/-- The words an instruction may change: the one it stores to, and the keyboard words where it polls (R54, R55). -/
def MayChange (s : State) (i : Instr) (a : Word) : Prop :=
  storeAddr s i = some a ∨ (Polls s i ∧ (a = Config.kbsr ∨ a = Config.kbdr))

/-- The outcome with its next state changed by `f`. -/
def mapNext (f : State → State) : Outcome → Outcome
  | .next t => .next (f t)
  | .fault r => .fault r
  | .refused r => .refused r

end Sys2Proof.Safety
end

