-- ==== Sys2Proof/Certificates/Slice0/Obligations.lean ====
section
/-! DEFINITION. The statements for the provers, each from the numbered rules of spec/. In a statement about `exec` the
state is the one after the fetch, so its PC is the incremented PC (R121). Encoding clauses speak of the opcode by its
name in the map of R96, whose numbers are decision D1 (log entry 2). -/

open Sys2Proof Sys2Proof.Machine Sys2Proof.Safety

/-! ## Reset, arithmetic and the flag -/

/-- The values of R37 hold after reset. The fault status is this spec's own register (D4). -/
def Obligations.ResetState : Prop :=
  (∀ i, State.reset.getReg i = 0x0000#16) ∧ State.reset.pc = 0x3000#16 ∧ State.reset.cond = .zero ∧
    State.reset.running = true ∧ (∀ a, State.reset.mem.read a = 0x0000#16) ∧ State.reset.fault = none ∧
    State.reset.cond = Cond.ofWord (State.reset.getReg 0)

/-- Sign extension of a field of 1 to 16 bits, `isNegative`, and zero extension of a byte (R8). -/
def Obligations.SignAndZeroExtension : Prop :=
  (∀ n, 1 ≤ n → n ≤ 16 → ∀ v : BitVec n,
    isNegative v = v.getLsbD (n - 1) ∧
      (v.getLsbD (n - 1) = false → sext v = v.setWidth 16) ∧
      (v.getLsbD (n - 1) = true → sext v = v.setWidth 16 ||| (0xFFFF#16 <<< n))) ∧
  (∀ b : Byte, lowByte (zext b) = b ∧ highByte (zext b) = 0x00#8)

/-- `setcc` recomputes the flag from the register's current value and changes nothing else (R26). -/
def Obligations.SetccFollowsRegister : Prop :=
  ∀ (s : State) i, (s.setcc i).cond =
      (if s.getReg i = 0x0000#16 then .zero else if (s.getReg i).getLsbD 15 = true then .negative else .positive) ∧
    s.setcc i = { s with cond := (s.setcc i).cond }

/-- BR's mask against the flag: NEGATIVE is bit 11 of the word, by the source's own test; ZERO is bit 10 and POSITIVE
bit 9 by the spec's decision D3 (log entry 11). -/
def Obligations.BranchMaskBits : Prop :=
  ∀ nzp : BitVec 3, branchTaken nzp .negative = nzp.getLsbD 2 ∧ branchTaken nzp .zero = nzp.getLsbD 1 ∧
    branchTaken nzp .positive = nzp.getLsbD 0

/-! ## Memory and the keyboard -/

/-- `MemWrite` stores the word, whatever the address, and has no other effect (R54). -/
def Obligations.MemoryWriteIsPlainStore : Prop :=
  ∀ (s : State) a v, StoresWord s (s.memWrite a v) a v

/-- `MemRead`: plain at every address but 0xFE00; there it polls, at the moment the console offers: the settled ones
first, then the end of the input or a free one (log entry 6). The host's `readMemory`, between cycles, is `MemRead`
(R238). That bits 14:0 of the status word are kept, that bits
15:8 of the data word become 0 and that a poll of an ended input finds none are decisions D6, D7 and D8 (log entry
10). -/
def Obligations.MemoryReadPollsKeyboard : Prop :=
  (∀ (s : State) a, a ≠ 0xFE00#16 → s.memRead a = (s.mem.read a, s)) ∧
  (∀ (s : State) b, s.con.look.1 = some (.byte b) →
    (s.memRead 0xFE00#16).1 = (s.mem.read 0xFE00#16 ||| 0x8000#16) ∧
      (s.memRead 0xFE00#16).2.mem.read 0xFE00#16 = (s.mem.read 0xFE00#16 ||| 0x8000#16) ∧
      (s.memRead 0xFE00#16).2.mem.read 0xFE02#16 = zext b ∧ (s.memRead 0xFE00#16).2.con = s.con.look.2) ∧
  (∀ s : State, s.con.look.1 = some .quiet ∨ s.con.look.1 = none →
    (s.memRead 0xFE00#16).1 = 0x0000#16 ∧ (s.memRead 0xFE00#16).2.con = s.con.look.2 ∧
      StoresWord { s with con := s.con.look.2 } (s.memRead 0xFE00#16).2 0xFE00#16 0x0000#16) ∧
  (∀ (s : State) a, RegsFrame s (s.memRead a).2 [] ∧ (s.memRead a).2.pc = s.pc ∧ (s.memRead a).2.cond = s.cond ∧
    MemFrame s (s.memRead a).2 [0xFE00#16, 0xFE02#16] ∧ (s.memRead a).2.con.output = s.con.output ∧
    StatusFrame s (s.memRead a).2) ∧
  (∀ (c : Console) e rest, c.input = e :: rest → c.look = (some e, { c with input := rest })) ∧
  (∀ c : Console, c.input = [] → c.ended = true → c.look = (none, c)) ∧
  (∀ c : Console, c.input = [] → c.ended = false → c.look.1 = Config.conMoment c.clock ∧
    c.look.2 = { c with clock := c.clock + 1, ended := (Config.conMoment c.clock).isNone }) ∧
  (∀ (s : State) a, s.unfinished = none → s.readMemory a = some (s.memRead a))

/-- Reads of the status word with one byte among quiet moments: 0 at the quiet moments before it, bit 15 set exactly
once, and 0 at the quiet moments after it, the byte staying in the data word (R53 d, the source's MMIO property). -/
def Obligations.KeyboardByteReportedOnce : Prop :=
  ∀ (s : State) (n m : Nat) (b : Byte) (rest : List ConEvent),
    s.con.input = List.replicate n .quiet ++ .byte b :: (List.replicate m .quiet ++ rest) →
    (∀ k, k < n → ((statusReads k s).memRead 0xFE00#16).1 = 0x0000#16) ∧
    ((statusReads n s).memRead 0xFE00#16).1.getLsbD 15 = true ∧
    (statusReads (n + 1) s).mem.read 0xFE02#16 = zext b ∧
    (∀ k, n < k → k ≤ n + m → ((statusReads k s).memRead 0xFE00#16).1 = 0x0000#16 ∧
      (statusReads (k + 1) s).mem.read 0xFE02#16 = zext b)

/-- A store is seen by the next fetch from its address, which for 0xFE00 is a poll instead (R63, R53). -/
def Obligations.StoreSeenByNextFetch : Prop :=
  ∀ (s : State) a v, a ≠ 0xFE00#16 → ((s.memWrite a v).setPc a).fetch = (v, (s.memWrite a v).setPc (a + 1))

/-- Two memories in canonical form that read alike at every address are the same list. The form is the model's own
(log entry 5). -/
def Obligations.EqualReadsEqualMemory : Prop :=
  ∀ m m' : Memory, m.wf → m'.wf → (∀ a, m.read a = m'.read a) → m = m'

/-! ## Operate instructions -/

/-- ADD, register form (R131). -/
def Obligations.AddRegisterForm : Prop :=
  (∀ w : Word, opcodeOf (w.extractLsb' 12 4) = .add → w.getLsbD 5 = false →
    decode w = .addReg (w.extractLsb' 9 3) (w.extractLsb' 6 3) (w.extractLsb' 0 3)) ∧
  (∀ dr sr1 sr2 (s : State), ∃ t, exec (.addReg dr sr1 sr2) s = .next t ∧
    WritesResult s t dr (s.getReg sr1 + s.getReg sr2) ∧
    (t.getReg dr).toNat = ((s.getReg sr1).toNat + (s.getReg sr2).toNat) % 65536)

/-- ADD, immediate form (R132). -/
def Obligations.AddImmediateForm : Prop :=
  (∀ w : Word, opcodeOf (w.extractLsb' 12 4) = .add → w.getLsbD 5 = true →
    decode w = .addImm (w.extractLsb' 9 3) (w.extractLsb' 6 3) (w.extractLsb' 0 5)) ∧
  (∀ dr sr1 imm (s : State), ∃ t, exec (.addImm dr sr1 imm) s = .next t ∧
    WritesResult s t dr (s.getReg sr1 + sext imm) ∧
    (t.getReg dr).toNat = ((s.getReg sr1).toNat + (sext imm).toNat) % 65536)

/-- AND, register form (R133). -/
def Obligations.AndRegisterForm : Prop :=
  (∀ w : Word, opcodeOf (w.extractLsb' 12 4) = .and → w.getLsbD 5 = false →
    decode w = .andReg (w.extractLsb' 9 3) (w.extractLsb' 6 3) (w.extractLsb' 0 3)) ∧
  (∀ dr sr1 sr2 (s : State), ∃ t, exec (.andReg dr sr1 sr2) s = .next t ∧
    WritesResult s t dr (s.getReg sr1 &&& s.getReg sr2))

/-- AND, immediate form (R134). -/
def Obligations.AndImmediateForm : Prop :=
  (∀ w : Word, opcodeOf (w.extractLsb' 12 4) = .and → w.getLsbD 5 = true →
    decode w = .andImm (w.extractLsb' 9 3) (w.extractLsb' 6 3) (w.extractLsb' 0 5)) ∧
  (∀ dr sr1 imm (s : State), ∃ t, exec (.andImm dr sr1 imm) s = .next t ∧
    WritesResult s t dr (s.getReg sr1 &&& sext imm))

/-- NOT (R135). -/
def Obligations.NotInvertsAllBits : Prop :=
  (∀ w : Word, opcodeOf (w.extractLsb' 12 4) = .not →
    decode w = .not (w.extractLsb' 9 3) (w.extractLsb' 6 3)) ∧
  (∀ dr sr (s : State), ∃ t, exec (.not dr sr) s = .next t ∧ WritesResult s t dr (0xFFFF#16 - s.getReg sr))

/-! ## Control transfer -/

/-- BR (R141), `flagbits` being the mask of R27. -/
def Obligations.BranchOnFlag : Prop :=
  (∀ w : Word, opcodeOf (w.extractLsb' 12 4) = .br → decode w = .br (w.extractLsb' 9 3) (w.extractLsb' 0 9)) ∧
  (∀ nzp off (s : State), ∃ t, exec (.br nzp off) s = .next t ∧
    JumpsTo s t (if nzp &&& s.cond.flagbits ≠ 0#3 then s.pc + sext off else s.pc) []) ∧
  (∀ off (s : State), ∃ t, exec (.br 0b000#3 off) s = .next t ∧ t.pc = s.pc) ∧
  (∀ off (s : State), ∃ t, exec (.br 0b111#3 off) s = .next t ∧ t.pc = s.pc + sext off)

/-- JMP (R142). Under the base register 7 the decoder's name for it is RET (R143). -/
def Obligations.JumpThroughRegister : Prop :=
  (∀ w : Word, opcodeOf (w.extractLsb' 12 4) = .jmp → decodeRow w = .jmp (w.extractLsb' 6 3)) ∧
  (∀ base (s : State), ∃ t, exec (.jmp base) s = .next t ∧ JumpsTo s t (s.getReg base) [])

/-- RET is JMP with base register 7 (R143). -/
def Obligations.ReturnIsJumpThroughR7 : Prop :=
  (∀ w : Word, opcodeOf (w.extractLsb' 12 4) = .jmp → w.extractLsb' 6 3 = 7#3 → decode w = .ret) ∧
  (∀ s : State, exec .ret s = exec (.jmp 7) s) ∧
  (∀ s : State, ∃ t, exec .ret s = .next t ∧ JumpsTo s t (s.getReg 7) [])

/-- JSR (R144). -/
def Obligations.JumpToSubroutine : Prop :=
  (∀ w : Word, opcodeOf (w.extractLsb' 12 4) = .jsr → w.getLsbD 11 = true → decode w = .jsr (w.extractLsb' 0 11)) ∧
  (∀ off (s : State), ∃ t, exec (.jsr off) s = .next t ∧ t.getReg 7 = s.pc ∧ JumpsTo s t (s.pc + sext off) [7])

/-- JSRR. That its base register is read after R7 was written, so that JSRR R7 falls through, is the spec's decision
D15 (log entry 12). -/
def Obligations.JumpToSubroutineThroughRegister : Prop :=
  (∀ w : Word, opcodeOf (w.extractLsb' 12 4) = .jsr → w.getLsbD 11 = false → decode w = .jsrr (w.extractLsb' 6 3)) ∧
  (∀ base (s : State), ∃ t, exec (.jsrr base) s = .next t ∧ t.getReg 7 = s.pc ∧
    JumpsTo s t (if base = 7#3 then s.pc else s.getReg base) [7])

/-! ## Loads, LEA and stores -/

/-- LD (R151). -/
def Obligations.LoadPcRelative : Prop :=
  (∀ w : Word, opcodeOf (w.extractLsb' 12 4) = .ld → decode w = .ld (w.extractLsb' 9 3) (w.extractLsb' 0 9)) ∧
  (∀ dr off (s : State), ∃ t, exec (.ld dr off) s = .next t ∧
    LoadsResult s (s.memRead (s.pc + sext off)).2 t dr (s.memRead (s.pc + sext off)).1 ∧
    (s.pc + sext off ≠ 0xFE00#16 → WritesResult s t dr (s.mem.read (s.pc + sext off))))

/-- LDI: two reads, the pointer's first (R152). -/
def Obligations.LoadIndirect : Prop :=
  (∀ w : Word, opcodeOf (w.extractLsb' 12 4) = .ldi → decode w = .ldi (w.extractLsb' 9 3) (w.extractLsb' 0 9)) ∧
  (∀ dr off (s : State), ∃ t, exec (.ldi dr off) s = .next t ∧
    (let p := s.memRead (s.pc + sext off)
     LoadsResult s (p.2.memRead p.1).2 t dr (p.2.memRead p.1).1) ∧
    (s.pc + sext off ≠ 0xFE00#16 → s.mem.read (s.pc + sext off) ≠ 0xFE00#16 →
      WritesResult s t dr (s.mem.read (s.mem.read (s.pc + sext off)))))

/-- LDR (R153). -/
def Obligations.LoadBaseOffset : Prop :=
  (∀ w : Word, opcodeOf (w.extractLsb' 12 4) = .ldr →
    decode w = .ldr (w.extractLsb' 9 3) (w.extractLsb' 6 3) (w.extractLsb' 0 6)) ∧
  (∀ dr base off (s : State), ∃ t, exec (.ldr dr base off) s = .next t ∧
    LoadsResult s (s.memRead (s.getReg base + sext off)).2 t dr (s.memRead (s.getReg base + sext off)).1 ∧
    (s.getReg base + sext off ≠ 0xFE00#16 → WritesResult s t dr (s.mem.read (s.getReg base + sext off))))

/-- LEA: no memory access, and the flag is recomputed (R154). -/
def Obligations.LoadEffectiveAddress : Prop :=
  (∀ w : Word, opcodeOf (w.extractLsb' 12 4) = .lea → decode w = .lea (w.extractLsb' 9 3) (w.extractLsb' 0 9)) ∧
  (∀ dr off (s : State), ∃ t, exec (.lea dr off) s = .next t ∧ WritesResult s t dr (s.pc + sext off))

/-- ST (R156). -/
def Obligations.StorePcRelative : Prop :=
  (∀ w : Word, opcodeOf (w.extractLsb' 12 4) = .st → decode w = .st (w.extractLsb' 9 3) (w.extractLsb' 0 9)) ∧
  (∀ sr off (s : State), ∃ t, exec (.st sr off) s = .next t ∧ StoresWord s t (s.pc + sext off) (s.getReg sr))

/-- STI: one read, which polls if the pointer word is at 0xFE00, then one write (R157). -/
def Obligations.StoreIndirect : Prop :=
  (∀ w : Word, opcodeOf (w.extractLsb' 12 4) = .sti → decode w = .sti (w.extractLsb' 9 3) (w.extractLsb' 0 9)) ∧
  (∀ sr off (s : State), ∃ t, exec (.sti sr off) s = .next t ∧
    (let p := s.memRead (s.pc + sext off)
     StoresWord p.2 t p.1 (s.getReg sr) ∧ MemFrame s t [p.1, 0xFE00#16, 0xFE02#16]) ∧
    RegsFrame s t [] ∧ t.pc = s.pc ∧ t.cond = s.cond ∧ t.con.output = s.con.output ∧ StatusFrame s t ∧
    (s.pc + sext off ≠ 0xFE00#16 → StoresWord s t (s.mem.read (s.pc + sext off)) (s.getReg sr)))

/-- STR (R158). -/
def Obligations.StoreBaseOffset : Prop :=
  (∀ w : Word, opcodeOf (w.extractLsb' 12 4) = .str →
    decode w = .str (w.extractLsb' 9 3) (w.extractLsb' 6 3) (w.extractLsb' 0 6)) ∧
  (∀ sr base off (s : State), ∃ t, exec (.str sr base off) s = .next t ∧
    StoresWord s t (s.getReg base + sext off) (s.getReg sr))

/-! ## TRAP, its services, RTI and the reserved opcode -/

/-- TRAP: R7 is written for every vector, a served vector runs its service, and every other vector faults. The fault
register and what the rest holds in FAULTED are decisions D4 and D5 (log entry 15). That a GETC or IN that waits and a
string scan that goes past 0xFE00 answer a next state too, the instruction unfinished, is the model's choice (log
entries 7 and 9). -/
def Obligations.TrapDispatch : Prop :=
  (∀ w : Word, opcodeOf (w.extractLsb' 12 4) = .trap → decodeRow w = .trap (w.extractLsb' 0 8)) ∧
  (∀ v (s : State), ∃ t, exec (.trap v) s = .next t ∧ t.getReg 7 = s.pc) ∧
  (∀ s : State, exec (.trap 0x20#8) s = exec .getc s ∧ exec (.trap 0x21#8) s = exec .out s ∧
    exec (.trap 0x22#8) s = exec .puts s ∧ exec (.trap 0x23#8) s = exec .inp s ∧
    exec (.trap 0x24#8) s = exec .putsp s ∧ exec (.trap 0x25#8) s = exec .halt s) ∧
  (∀ v (s : State), ¬ ServedVector v → ∃ t, exec (.trap v) s = .next t ∧ t.getReg 7 = s.pc ∧
    Raises s t (.badTrapVector v) [7] ∧ ConsoleFrame s t ∧ t.unfinished = s.unfinished)

/-- GETC, by what the console offers: a byte is read into R0; at a quiet moment the core waits; at the end of the input
it faults. That bits 15:8 of R0 become 0 is decision D9 (log entry 16), the fault register and what the rest holds in
FAULTED are D4 and D5 (log entry 15), and the wait as a next state is the model's choice (log entry 7). -/
def Obligations.GetcReadsOneByte : Prop :=
  (∀ (s : State) c, s.con.look.1 = some (.byte c) →
    ∃ t, exec .getc s = .next t ∧ t.getReg 0 = zext c ∧ TrapEntered s t [0] ∧ MemFrame s t [] ∧
      t.con = s.con.look.2 ∧ t.running = s.running ∧ t.fault = s.fault ∧ t.unfinished = none) ∧
  (∀ s : State, s.con.look.1 = some .quiet →
    ∃ t, exec .getc s = .next t ∧ TrapEntered s t [] ∧ MemFrame s t [] ∧ t.con = s.con.look.2 ∧
      t.running = s.running ∧ t.fault = s.fault ∧ t.unfinished = some (.reading .getc)) ∧
  (∀ s : State, s.con.look.1 = none →
    ∃ t, exec .getc s = .next t ∧ Raises s t .consoleEndOfInput [7] ∧ t.getReg 7 = s.pc ∧ t.con = s.con.look.2 ∧
      t.unfinished = none)

/-- OUT: bits 7:0 of R0 are appended to the console output (R173). The vector is spoken of by its name. -/
def Obligations.OutPrintsLowByte : Prop :=
  (∀ w : Word, opcodeOf (w.extractLsb' 12 4) = .trap → w.extractLsb' 0 8 = trapOut → decode w = .out) ∧
  (∀ s : State, ∃ t, exec .out s = .next t ∧
    t.con = { s.con with output := s.con.output ++ [(s.getReg 0).extractLsb' 0 8] } ∧
    TrapEntered s t [] ∧ MemFrame s t [] ∧ StatusFrame s t)

/-- PUTS, in every state, runs the loop of R174 to its end, or past the next 0xFE00, where a step of this model leaves
the instruction unfinished (log entry 9). Its reads are `MemRead`s by decision D13, the byte printed is D12's and R0 is
left alone by D22 (log entry 17). -/
def Obligations.PutsFollowsItsLoop : Prop :=
  ∀ s : State, ∃ t, exec .puts s = .next t ∧ PutsStep (s.setReg 7 s.pc) (s.getReg 0) t ∧ TrapEntered s t [] ∧
    MemFrame s t [0xFE00#16, 0xFE02#16] ∧ t.running = s.running ∧ t.fault = s.fault

/-- PUTS on a string that stays clear of 0xFE00 completes: it prints the low byte of each word up to the zero word and
changes no memory and no input. The byte printed is decision D12's, the wrap past 0xFFFF D14's (log entry 17). -/
def Obligations.PutsPrintsZeroTerminatedString : Prop :=
  ∀ (s : State) (ws : List Word),
    (∀ k, k ≤ ws.length → s.getReg 0 + BitVec.ofNat 16 k ≠ 0xFE00#16) →
    (∀ k (h : k < ws.length), s.mem.read (s.getReg 0 + BitVec.ofNat 16 k) = ws[k] ∧ ws[k] ≠ 0x0000#16) →
    s.mem.read (s.getReg 0 + BitVec.ofNat 16 ws.length) = 0x0000#16 →
    ∃ t, exec .puts s = .next t ∧
      t.con = { s.con with output := s.con.output ++ ws.map (fun w => w.extractLsb' 0 8) } ∧ TrapEntered s t [] ∧
      MemFrame s t [] ∧ t.running = s.running ∧ t.fault = s.fault ∧ t.unfinished = none

/-- IN, by what the console offers: the prompt is printed, then a byte is echoed and read into R0; at a quiet moment the
core waits with the prompt printed; at the end of the input it faults. The prompt is the open parameter of D10, the
flushes are D11's and the zero bits 15:8 of R0 D9's (log entries 1 and 16); the fault register and what the rest holds
in FAULTED are D4 and D5 (log entry 15); the wait as a next state is the model's choice (log entry 7). -/
def Obligations.InPromptsAndEchoes : Prop :=
  (∀ (s : State) c, s.con.look.1 = some (.byte c) →
    ∃ t, exec .inp s = .next t ∧ t.getReg 0 = zext c ∧ TrapEntered s t [0] ∧ MemFrame s t [] ∧
      t.con = { s.con.look.2 with output := s.con.output ++ Config.inPrompt ++ [c] } ∧ t.running = s.running ∧
      t.fault = s.fault ∧ t.unfinished = none) ∧
  (∀ s : State, s.con.look.1 = some .quiet →
    ∃ t, exec .inp s = .next t ∧ TrapEntered s t [] ∧ MemFrame s t [] ∧
      t.con = { s.con.look.2 with output := s.con.output ++ Config.inPrompt } ∧ t.running = s.running ∧
      t.fault = s.fault ∧ t.unfinished = some (.reading .inp)) ∧
  (∀ s : State, s.con.look.1 = none →
    ∃ t, exec .inp s = .next t ∧ Raises s t .consoleEndOfInput [7] ∧ t.getReg 7 = s.pc ∧
      t.con = { s.con.look.2 with output := s.con.output ++ Config.inPrompt } ∧ t.unfinished = none)

/-- PUTSP, in every state, runs the loop of R176 to its end, or past the next 0xFE00; on a string that stays clear of
0xFE00 it completes, both bytes of each word printed up to the zero byte. The same decisions and the same choice of
this model as PUTS (log entries 9 and 17). -/
def Obligations.PutspFollowsItsLoop : Prop :=
  (∀ s : State, ∃ t, exec .putsp s = .next t ∧ PutspStep (s.setReg 7 s.pc) (s.getReg 0) t ∧ TrapEntered s t [] ∧
    MemFrame s t [0xFE00#16, 0xFE02#16] ∧ t.running = s.running ∧ t.fault = s.fault) ∧
  (∀ (s : State) (ws : List Word) (w : Word),
    (∀ k, k ≤ ws.length → s.getReg 0 + BitVec.ofNat 16 k ≠ 0xFE00#16) →
    (∀ k (h : k < ws.length), s.mem.read (s.getReg 0 + BitVec.ofNat 16 k) = ws[k] ∧ lowByte ws[k] ≠ 0x00#8 ∧
      highByte ws[k] ≠ 0x00#8) →
    s.mem.read (s.getReg 0 + BitVec.ofNat 16 ws.length) = w → lowByte w = 0x00#8 ∨ highByte w = 0x00#8 →
    ∃ t, exec .putsp s = .next t ∧
      t.con = { s.con with output := s.con.output ++ ws.flatMap (fun w => [w.extractLsb' 0 8, w.extractLsb' 8 8]) ++
        (if lowByte w = 0x00#8 then [] else [lowByte w]) } ∧ TrapEntered s t [] ∧
      MemFrame s t [] ∧ t.running = s.running ∧ t.fault = s.fault ∧ t.unfinished = none)

/-- HALT clears the run bit and, past the TRAP's own write of R7, changes nothing else; that it prints nothing is
decision D26 (log entry 18). -/
def Obligations.HaltClearsRunning : Prop :=
  ∀ s : State, ∃ t, exec .halt s = .next t ∧ t.running = false ∧ TrapEntered s t [] ∧ MemFrame s t [] ∧
    ConsoleFrame s t ∧ t.fault = s.fault ∧ t.unfinished = s.unfinished

/-- RTI and the reserved opcode raise their faults and nothing else; the fault register is decision D4 (log entry
15). -/
def Obligations.RtiAndReservedOpcodeFault : Prop :=
  (∀ w : Word, opcodeOf (w.extractLsb' 12 4) = .rti → decode w = .rti) ∧
  (∀ w : Word, opcodeOf (w.extractLsb' 12 4) = .reserved → decode w = .res) ∧
  (∀ s : State, ∃ t, exec .rti s = .next t ∧ Raises s t .rtiNotImplemented [] ∧ ConsoleFrame s t ∧
    t.unfinished = s.unfinished) ∧
  (∀ s : State, ∃ t, exec .res s = .next t ∧ Raises s t .reservedOpcode [] ∧ ConsoleFrame s t ∧
    t.unfinished = s.unfinished)

/-- What the six services leave alone: PC, the flag, R1 to R6, every memory word but the keyboard words at a string
scan that reads 0xFE00; R0 changes at GETC and IN only (R179). That a GETC or IN that waits and a string scan that goes
past 0xFE00 answer a next state too is the model's choice (log entries 7 and 9). -/
def Obligations.ServicesLeaveTheRestAlone : Prop :=
  ∀ i ∈ [Instr.getc, .out, .puts, .inp, .putsp, .halt], ∀ s : State, ∃ t, exec i s = .next t ∧
    t.pc = s.pc ∧ t.cond = s.cond ∧ RegsFrame s t (if i = .getc ∨ i = .inp then [7, 0] else [7]) ∧
    t.getReg 7 = s.pc ∧ MemFrame s t (if i = .puts ∨ i = .putsp then [0xFE00#16, 0xFE02#16] else []) ∧
    (¬ Polls s i → MemFrame s t [])

/-! ## Rules over all instructions -/

/-- Exactly the seven instructions with a flag destination write the flag, each from its DR; every other instruction
leaves it, only BR reads it, and of the host's operations only `restore` writes it (R28). -/
def Obligations.OnlySevenInstructionsWriteFlag : Prop :=
  (∀ i (s t : State), exec i s = .next t →
    t.cond = match flagDest i with
      | some dr => Cond.ofWord (t.getReg dr)
      | none => s.cond) ∧
  (∀ i (s : State) c, (∀ nzp off, i ≠ .br nzp off) →
    exec i { s with cond := c } =
      mapNext (fun t => if (flagDest i).isSome then t else { t with cond := c }) (exec i s)) ∧
  (∀ (s : State) bytes r, s.load bytes = some r → r.2.cond = s.cond) ∧
  (∀ (s : State) a r, s.readMemory a = some r → r.2.cond = s.cond) ∧
  (∀ s t : State, s.resume = some t → t.cond = s.cond)

/-- Of all instructions only HALT, the TRAP with vector 0x25, clears the run bit, and none sets it (R29). -/
def Obligations.OnlyHaltClearsRunBit : Prop :=
  ∀ i (s t : State), exec i s = .next t → t.running = if trapVector i = some 0x25#8 then false else s.running

/-- The fault status changes only at RTI, the reserved opcode, an unserved vector, and the end of console input in
GETC and IN, each with its own cause. The register is decision D4 (log entry 15). -/
def Obligations.OnlyFourCausesFault : Prop :=
  ∀ i (s t : State), exec i s = .next t →
    t.fault = s.fault ∨
    (i = .rti ∧ t.fault = some .rtiNotImplemented) ∨
    (i = .res ∧ t.fault = some .reservedOpcode) ∨
    (∃ v, trapVector i = some v ∧ ¬ ServedVector v ∧ t.fault = some (.badTrapVector v)) ∨
    ((trapVector i = some 0x20#8 ∨ trapVector i = some 0x23#8) ∧ s.con.look.1 = none ∧
      t.fault = some .consoleEndOfInput)

/-- PC after each instruction: the table of R24. JSRR's order is decision D15 (log entry 12) and the FAULTED state D4
(log entry 15); that a GETC or IN that waits and a string scan that goes past 0xFE00 answer a next state too is the
model's choice (log entries 7 and 9). -/
def Obligations.PcAfterEachInstruction : Prop :=
  (∀ i (s : State), ∃ t, exec i s = .next t ∧ t.pc = pcAfter s i) ∧
  (∀ i (s t : State), (i = .rti ∨ i = .res ∨ ∃ v, i = .trap v ∧ ¬ ServedVector v) → exec i s = .next t →
    t.fault.isSome = true)

/-- Every instruction leaves every register outside its row of R22's table unchanged. -/
def Obligations.RegistersWrittenByEachInstruction : Prop :=
  ∀ i (s t : State), exec i s = .next t → RegsFrame s t (regsWritten i)

/-- No instruction changes a word of memory but ST, STI and STR at their address, and the keyboard words where the
instruction makes a `MemRead` of 0xFE00 (R51, R54, R55). The fetch, which may poll too, comes before. -/
def Obligations.OnlyStoresWriteMemory : Prop :=
  ∀ i (s t : State), exec i s = .next t → ∀ a, ¬ MayChange s i a → t.mem.read a = s.mem.read a

/-- An alias row's instruction does exactly what its core row's instruction does (R101, R143). That aliases have
constructors of their own is the model's choice (log entry 4). -/
def Obligations.AliasRunsAsItsCoreInstruction : Prop :=
  ∀ i (s : State), exec (nameAlias i) s = exec i s

/-! ## The cycle and whole runs -/

/-- While RUNNING, with no unfinished instruction, a step fetches at PC, increments PC and executes the decoded
instruction (R121). The unfinished instruction is the model's own field (log entries 7 and 9). -/
def Obligations.StepRunsDecodedInstruction : Prop :=
  ∀ (s : State) i, s.running = true → s.fault = none → s.unfinished = none → decode (s.memRead s.pc).1 = i →
    step s = exec i ((s.memRead s.pc).2.setPc (s.pc + 1))

/-- A core that waits in GETC or IN does nothing until the console answers, then completes the service or faults (R67);
after quiet moments a byte completes it. The waiting is the model's own field (log entry 7); that bits 15:8 of R0
become 0 is decision D9 (log entry 16), and the fault register and what the rest holds in FAULTED are D4 and D5 (log
entry 15). -/
def Obligations.BlockedReadWaitsForConsole : Prop :=
  (∀ (s : State) r, s.running = true → s.fault = none → s.unfinished = some (.reading r) →
    s.con.look.1 = some .quiet → step s = .next { s with con := s.con.look.2 }) ∧
  (∀ (s : State) r n c rest, s.running = true → s.fault = none → s.unfinished = some (.reading r) →
    s.con.input = List.replicate n .quiet ++ .byte c :: rest →
    ∃ t, Sys2Proof.core.run (n + 1) s = .next t ∧ t.getReg 0 = zext c ∧ RegsFrame s t [0] ∧ t.pc = s.pc ∧
      t.cond = s.cond ∧ MemFrame s t [] ∧
      t.con = { s.con with input := rest, output := s.con.output ++ (if r = .inp then [c] else []) } ∧
      t.running = true ∧ t.fault = none ∧ t.unfinished = none) ∧
  (∀ (s : State) r c, s.running = true → s.fault = none → s.unfinished = some (.reading r) →
    s.con.look.1 = some (.byte c) →
    ∃ t, step s = .next t ∧ t.getReg 0 = zext c ∧ RegsFrame s t [0] ∧ t.pc = s.pc ∧ t.cond = s.cond ∧
      MemFrame s t [] ∧ t.con = { s.con.look.2 with output := s.con.output ++ (if r = .inp then [c] else []) } ∧
      t.running = true ∧ t.fault = none ∧ t.unfinished = none) ∧
  (∀ (s : State) r, s.running = true → s.fault = none → s.unfinished = some (.reading r) → s.con.look.1 = none →
    ∃ t, step s = .next t ∧ Raises s t .consoleEndOfInput [] ∧ t.con = s.con.look.2 ∧ t.unfinished = none)

/-- No state stops the model: every instruction and every step answers a next state, so a run of any length does. A
GETC or IN that waits, a string scan that goes past 0xFE00, and a HALTED or FAULTED core answer one by the model's
choice (log entries 7, 9 and 13). -/
def Obligations.EveryStepAnswersNextState : Prop :=
  (∀ i (s : State), ∃ t, exec i s = .next t) ∧ (∀ s : State, ∃ t, step s = .next t) ∧
  (∀ k (s : State), ∃ t, Sys2Proof.core.run k s = .next t)

/-- HALTED and FAULTED are terminal: no cycle is executed, the step answers the state as it is, and so does a run of any
length (R120, R124). That such a step answers the same state is the model's choice (log entry 13); FAULTED is decision
D4 (log entry 15). -/
def Obligations.StoppedCoreStaysStopped : Prop :=
  ∀ s : State, s.running = false ∨ s.fault.isSome = true →
    step s = .next s ∧ ∀ k, Sys2Proof.core.run k s = .next s ∧ runFor k s = s.runEnd

/-- A run ends normally at a TRAP whose low byte is 0x25: R7 and PC hold its address + 1, and the core is HALTED
(R124); the vector is the one number the source gives. -/
def Obligations.HaltWordEndsRun : Prop :=
  ∀ (s : State) (k : Nat), s.running = true → s.fault = none → s.unfinished = none → s.pc ≠ 0xFE00#16 →
    opcodeOf ((s.mem.read s.pc).extractLsb' 12 4) = .trap → (s.mem.read s.pc).extractLsb' 0 8 = 0x25#8 →
    ∃ t, s.run (k + 1) = some (.returned t) ∧ NormalEnd t ∧ t.pc = s.pc + 1 ∧ t.getReg 7 = s.pc + 1 ∧
      RegsFrame s t [7] ∧ t.cond = s.cond ∧ MemFrame s t [] ∧ ConsoleFrame s t

/-- Every step keeps the invariant: memory canonical, a core inside an unfinished service RUNNING with its return
address in R7, and a fault only beside a set run bit, with an unserved vector where one is recorded. -/
def Obligations.StepKeepsInvariant : Prop :=
  ∀ s t : State, Consistent s → step s = .next t → Consistent t

/-- The state after reset meets the invariant. -/
def Obligations.ResetMeetsInvariant : Prop :=
  Consistent State.reset

/-- The host acts between cycles only: inside an unfinished instruction it has no move (R242, U15). Its operations and
the console's keep the invariant, and a restored instance has it if the snapshot's memory is canonical. The unfinished
instruction is the model's own field (log entries 7 and 9). -/
def Obligations.HostOperationsKeepInvariant : Prop :=
  (∀ (s : State) bytes a k, s.unfinished.isSome = true →
    s.load bytes = none ∧ s.readMemory a = none ∧ s.snapshot = none ∧ s.resume = none ∧ s.run k = none) ∧
  (∀ (s : State) bytes r, Consistent s → s.load bytes = some r → Consistent r.2) ∧
  (∀ (s : State) a r, Consistent s → s.readMemory a = some r → Consistent r.2) ∧
  (∀ s t : State, Consistent s → s.resume = some t → Consistent t) ∧
  (∀ (s : State) e, Consistent s → Consistent (s.consoleOffer e)) ∧
  (∀ s : State, Consistent s → Consistent s.consoleClose) ∧
  (∀ (k : Snapshot) con, k.mem.wf → Consistent (restore k con))

/-- At every step, and so over a run of any length, the console only goes forward: settled moments are taken from the
front, free moments in order, an ended input stays ended, and output is added at the end (R35, R66, R68). That the
console is in the state and settles nothing of its own accord between two steps of a run is the model's choice (log
entries 6 and 22). -/
def Obligations.ConsoleStreamsOnlyAdvance : Prop :=
  (∀ s t : State, step s = .next t → Advances s.con t.con) ∧
  (∀ k (s t : State), Sys2Proof.core.run k s = .next t → Advances s.con t.con)

/-- A string service that has not finished goes on at the next step from where it stands, as its loop does; and a PUTS
over memory without a zero word, whose every poll finds a byte that is not 0, is still unfinished after any number of
steps: a run without end, neither a halt nor a fault (R125 d, R250). That a scan is cut after a poll is the model's
choice (log entry 9); that its reads poll is decision D13 and the kept low bits D6 (log entries 10 and 17). -/
def Obligations.UnfinishedScanGoesOn : Prop :=
  (∀ (s : State) a, s.running = true → s.fault = none → s.unfinished = some (.puts a) →
    ∃ t, step s = .next t ∧ PutsStep s a t ∧ RegsFrame s t [] ∧ t.pc = s.pc ∧ t.cond = s.cond ∧
      MemFrame s t [0xFE00#16, 0xFE02#16] ∧ t.running = true ∧ t.fault = none) ∧
  (∀ (s : State) a, s.running = true → s.fault = none → s.unfinished = some (.putsp a) →
    ∃ t, step s = .next t ∧ PutspStep s a t ∧ RegsFrame s t [] ∧ t.pc = s.pc ∧ t.cond = s.cond ∧
      MemFrame s t [0xFE00#16, 0xFE02#16] ∧ t.running = true ∧ t.fault = none) ∧
  (∀ (s : State) a k b rest, s.running = true → s.fault = none → s.unfinished = some (.puts a) →
    (∀ x, x ≠ 0xFE00#16 → s.mem.read x ≠ 0x0000#16) → b ≠ 0x00#8 →
    s.con.input = List.replicate (k + 1) (.byte b) ++ rest →
    ∃ t, Sys2Proof.core.run (k + 1) s = .next t ∧ t.unfinished = some (.puts 0xFE01#16) ∧ t.running = true ∧
      t.fault = none ∧ t.con.input = rest)

/-! ## Encoding -/

/-- Decode and encode agree: every word's instruction is well-formed, and every well-formed instruction is what its
word decodes to. -/
def Obligations.DecodeEncodeRoundTrip : Prop :=
  (∀ w, WellFormed (decode w) = true) ∧ (∀ i, WellFormed i = true → decode (encode i) = i)

/-- Words that agree on the bits the hardware examines decode alike, and the encoder gives back those bits. That the
others are not examined is decision D16 (log entry 19). -/
def Obligations.UnexaminedBitsIgnored : Prop :=
  (∀ w w' : Word, w &&& examinedBits (rowOf (decode w)) = w' &&& examinedBits (rowOf (decode w)) →
    decode w' = decode w) ∧
  (∀ w : Word, encode (decode w) &&& examinedBits (rowOf (decode w)) = w &&& examinedBits (rowOf (decode w)))

/-- Each of the 65536 words matches exactly one of the nineteen decoder rows, the row of the instruction it decodes to
(R95, R102, R103; the numbers are decision D1, log entry 2). -/
def Obligations.DecoderRowsPartitionWords : Prop :=
  decoderRows.length = 19 ∧
  (∀ w : Word, (decoderRows.filter (fun r => w &&& r.mask = r.pattern)).map DecoderRow.name = [rowOf (decode w)]) ∧
  (∀ w : Word, ∀ r ∈ decoderRows, (w &&& r.mask = r.pattern ↔ r.name = rowOf (decode w)))

/-- The words that always fail are those of opcodes 1000 and 1101 and the TRAPs with an unserved vector, and no others
(R98; the numbers are decisions D1 and D2, log entries 2 and 3). -/
def Obligations.IllegalWordsAlwaysFail : Prop :=
  ∀ (w : Word) (s : State), s.fault = none →
    ((∃ t c, exec (decode w) s = .next t ∧ t.fault = some c ∧ c ≠ .consoleEndOfInput) ↔
      w.extractLsb' 12 4 = 0b1000#4 ∨ w.extractLsb' 12 4 = 0b1101#4 ∨
        (w.extractLsb' 12 4 = 0b1111#4 ∧ (w.extractLsb' 0 8 < 0x20#8 ∨ 0x25#8 < w.extractLsb' 0 8)))

/-- A few words of the spec's examples decode to the instructions the spec reads in them (the numbers are decisions D1
and D2, log entries 2 and 3). -/
def Obligations.SampleWordsDecode : Prop :=
  decode 0x1401#16 = .addReg 2 0 1 ∧ decode 0x127F#16 = .addImm 1 1 0x1F#5 ∧ decode 0x903F#16 = .not 0 0 ∧
  decode 0x03FD#16 = .br 0b001#3 0x1FD#9 ∧ decode 0x4803#16 = .jsr 3#11 ∧ decode 0x41C0#16 = .jsrr 7 ∧
  decode 0xC1C0#16 = .ret ∧ decode 0x6641#16 = .ldr 3 1 1#6 ∧ decode 0xB806#16 = .sti 4 6#9 ∧
  decode 0xF025#16 = .halt ∧ decode 0xF0FF#16 = .trap 0xFF#8 ∧ decode 0x8000#16 = .rti ∧ decode 0xD123#16 = .res

/-! ## The host -/

/-- `load`, between cycles, of an image with at most 65536 words: word `k` is stored at the origin plus `k`, wrapping
(D14), and nothing else changes (R236); a stream too short to hold an origin word stores nothing and is an error, and
so is one with an odd last byte (D20, log entry 20). -/
def Obligations.LoadStoresImage : Prop :=
  (∀ (s : State) (bytes : List Byte) (origin : Word) (ws : List Word), s.unfinished = none →
    imageWords bytes = origin :: ws → ws.length ≤ 65536 →
    ∃ status t, s.load bytes = some (status, t) ∧
      (∀ k (h : k < ws.length), t.mem.read (origin + BitVec.ofNat 16 k) = ws[k]) ∧
      (∀ a, (∀ k, k < ws.length → a ≠ origin + BitVec.ofNat 16 k) → t.mem.read a = s.mem.read a) ∧
      t = { s with mem := t.mem } ∧ (status = .ok ↔ bytes.length % 2 = 0)) ∧
  (∀ (s : State) (bytes : List Byte), s.unfinished = none → bytes.length < 2 →
    s.load bytes = some (.ioError, s))

/-- A restored snapshot has the original's memory and registers, field for field, with `running` false, beside the
console it is given (the model's choice, log entry 23). `resume` sets `running` and does nothing else (R241). That a
restored instance has no fault, and that the host has a `resume`, are decision D19 (log entry 20). -/
def Obligations.RestoreOfSnapshot : Prop :=
  (∀ (s : State) con, s.unfinished = none → ∃ k, s.snapshot = some k ∧
    (restore k con).mem = s.mem ∧ (restore k con).regs = s.regs ∧ (restore k con).pc = s.pc ∧
    (restore k con).cond = s.cond ∧ (restore k con).running = false ∧ (restore k con).fault = none ∧
    (restore k con).con = con ∧ (restore k con).unfinished = none ∧
    (∀ n, (restore k con).run n = some (.returned (restore k con)))) ∧
  (∀ s : State, s.unfinished = none → s.resume = some { s with running := true })
end

