-- ==== Sys2Proof/Laws/State.lean ====
section
/-! SUPPORT. One lemma per field and update of the state, each true by unfolding, so that no later proof unfolds a
record update; and reading a register after an update. -/

namespace Sys2Proof.Machine

/-! ## setReg -/

@[simp] theorem State.setReg_regs (s : State) (i : RegIdx) (v : Word) : (s.setReg i v).regs = s.regs.set i.toNat v i.isLt := rfl
@[simp] theorem State.setReg_pc (s : State) (i : RegIdx) (v : Word) : (s.setReg i v).pc = s.pc := rfl
@[simp] theorem State.setReg_cond (s : State) (i : RegIdx) (v : Word) : (s.setReg i v).cond = s.cond := rfl
@[simp] theorem State.setReg_mem (s : State) (i : RegIdx) (v : Word) : (s.setReg i v).mem = s.mem := rfl
@[simp] theorem State.setReg_running (s : State) (i : RegIdx) (v : Word) : (s.setReg i v).running = s.running := rfl
@[simp] theorem State.setReg_fault (s : State) (i : RegIdx) (v : Word) : (s.setReg i v).fault = s.fault := rfl
@[simp] theorem State.setReg_con (s : State) (i : RegIdx) (v : Word) : (s.setReg i v).con = s.con := rfl
@[simp] theorem State.setReg_unfinished (s : State) (i : RegIdx) (v : Word) : (s.setReg i v).unfinished = s.unfinished := rfl

/-! ## setPc -/

@[simp] theorem State.setPc_regs (s : State) (v : Word) : (s.setPc v).regs = s.regs := rfl
@[simp] theorem State.setPc_pc (s : State) (v : Word) : (s.setPc v).pc = v := rfl
@[simp] theorem State.setPc_cond (s : State) (v : Word) : (s.setPc v).cond = s.cond := rfl
@[simp] theorem State.setPc_mem (s : State) (v : Word) : (s.setPc v).mem = s.mem := rfl
@[simp] theorem State.setPc_running (s : State) (v : Word) : (s.setPc v).running = s.running := rfl
@[simp] theorem State.setPc_fault (s : State) (v : Word) : (s.setPc v).fault = s.fault := rfl
@[simp] theorem State.setPc_con (s : State) (v : Word) : (s.setPc v).con = s.con := rfl
@[simp] theorem State.setPc_unfinished (s : State) (v : Word) : (s.setPc v).unfinished = s.unfinished := rfl
@[simp] theorem State.setPc_getReg (s : State) (v : Word) (j : RegIdx) : (s.setPc v).getReg j = s.getReg j := rfl

/-! ## memWrite -/

@[simp] theorem State.memWrite_regs (s : State) (a v : Word) : (s.memWrite a v).regs = s.regs := rfl
@[simp] theorem State.memWrite_pc (s : State) (a v : Word) : (s.memWrite a v).pc = s.pc := rfl
@[simp] theorem State.memWrite_cond (s : State) (a v : Word) : (s.memWrite a v).cond = s.cond := rfl
@[simp] theorem State.memWrite_mem (s : State) (a v : Word) : (s.memWrite a v).mem = s.mem.write a v := rfl
@[simp] theorem State.memWrite_running (s : State) (a v : Word) : (s.memWrite a v).running = s.running := rfl
@[simp] theorem State.memWrite_fault (s : State) (a v : Word) : (s.memWrite a v).fault = s.fault := rfl
@[simp] theorem State.memWrite_con (s : State) (a v : Word) : (s.memWrite a v).con = s.con := rfl
@[simp] theorem State.memWrite_unfinished (s : State) (a v : Word) : (s.memWrite a v).unfinished = s.unfinished := rfl
@[simp] theorem State.memWrite_getReg (s : State) (a v : Word) (j : RegIdx) : (s.memWrite a v).getReg j = s.getReg j := rfl

/-! ## conPut -/

@[simp] theorem State.conPut_regs (s : State) (b : Byte) : (s.conPut b).regs = s.regs := rfl
@[simp] theorem State.conPut_pc (s : State) (b : Byte) : (s.conPut b).pc = s.pc := rfl
@[simp] theorem State.conPut_cond (s : State) (b : Byte) : (s.conPut b).cond = s.cond := rfl
@[simp] theorem State.conPut_mem (s : State) (b : Byte) : (s.conPut b).mem = s.mem := rfl
@[simp] theorem State.conPut_running (s : State) (b : Byte) : (s.conPut b).running = s.running := rfl
@[simp] theorem State.conPut_fault (s : State) (b : Byte) : (s.conPut b).fault = s.fault := rfl
@[simp] theorem State.conPut_con (s : State) (b : Byte) : (s.conPut b).con = s.con.put [b] := rfl
@[simp] theorem State.conPut_unfinished (s : State) (b : Byte) : (s.conPut b).unfinished = s.unfinished := rfl
@[simp] theorem State.conPut_getReg (s : State) (b : Byte) (j : RegIdx) : (s.conPut b).getReg j = s.getReg j := rfl

/-! ## conPutAll -/

@[simp] theorem State.conPutAll_regs (s : State) (bs : List Byte) : (s.conPutAll bs).regs = s.regs := rfl
@[simp] theorem State.conPutAll_pc (s : State) (bs : List Byte) : (s.conPutAll bs).pc = s.pc := rfl
@[simp] theorem State.conPutAll_cond (s : State) (bs : List Byte) : (s.conPutAll bs).cond = s.cond := rfl
@[simp] theorem State.conPutAll_mem (s : State) (bs : List Byte) : (s.conPutAll bs).mem = s.mem := rfl
@[simp] theorem State.conPutAll_running (s : State) (bs : List Byte) : (s.conPutAll bs).running = s.running := rfl
@[simp] theorem State.conPutAll_fault (s : State) (bs : List Byte) : (s.conPutAll bs).fault = s.fault := rfl
@[simp] theorem State.conPutAll_con (s : State) (bs : List Byte) : (s.conPutAll bs).con = s.con.put bs := rfl
@[simp] theorem State.conPutAll_unfinished (s : State) (bs : List Byte) : (s.conPutAll bs).unfinished = s.unfinished := rfl
@[simp] theorem State.conPutAll_getReg (s : State) (bs : List Byte) (j : RegIdx) : (s.conPutAll bs).getReg j = s.getReg j := rfl

/-! ## setCon -/

@[simp] theorem State.setCon_regs (s : State) (c : Console) : (s.setCon c).regs = s.regs := rfl
@[simp] theorem State.setCon_pc (s : State) (c : Console) : (s.setCon c).pc = s.pc := rfl
@[simp] theorem State.setCon_cond (s : State) (c : Console) : (s.setCon c).cond = s.cond := rfl
@[simp] theorem State.setCon_mem (s : State) (c : Console) : (s.setCon c).mem = s.mem := rfl
@[simp] theorem State.setCon_running (s : State) (c : Console) : (s.setCon c).running = s.running := rfl
@[simp] theorem State.setCon_fault (s : State) (c : Console) : (s.setCon c).fault = s.fault := rfl
@[simp] theorem State.setCon_con (s : State) (c : Console) : (s.setCon c).con = c := rfl
@[simp] theorem State.setCon_unfinished (s : State) (c : Console) : (s.setCon c).unfinished = s.unfinished := rfl
@[simp] theorem State.setCon_getReg (s : State) (c : Console) (j : RegIdx) : (s.setCon c).getReg j = s.getReg j := rfl

/-! ## setUnfinished -/

@[simp] theorem State.setUnfinished_regs (s : State) (u : Option Unfinished) : (s.setUnfinished u).regs = s.regs := rfl
@[simp] theorem State.setUnfinished_pc (s : State) (u : Option Unfinished) : (s.setUnfinished u).pc = s.pc := rfl
@[simp] theorem State.setUnfinished_cond (s : State) (u : Option Unfinished) : (s.setUnfinished u).cond = s.cond := rfl
@[simp] theorem State.setUnfinished_mem (s : State) (u : Option Unfinished) : (s.setUnfinished u).mem = s.mem := rfl
@[simp] theorem State.setUnfinished_running (s : State) (u : Option Unfinished) : (s.setUnfinished u).running = s.running := rfl
@[simp] theorem State.setUnfinished_fault (s : State) (u : Option Unfinished) : (s.setUnfinished u).fault = s.fault := rfl
@[simp] theorem State.setUnfinished_con (s : State) (u : Option Unfinished) : (s.setUnfinished u).con = s.con := rfl
@[simp] theorem State.setUnfinished_unfinished (s : State) (u : Option Unfinished) : (s.setUnfinished u).unfinished = u := rfl
@[simp] theorem State.setUnfinished_getReg (s : State) (u : Option Unfinished) (j : RegIdx) : (s.setUnfinished u).getReg j = s.getReg j := rfl

/-! ## raise -/

@[simp] theorem State.raise_regs (s : State) (c : FaultCause) : (s.raise c).regs = s.regs := rfl
@[simp] theorem State.raise_pc (s : State) (c : FaultCause) : (s.raise c).pc = s.pc := rfl
@[simp] theorem State.raise_cond (s : State) (c : FaultCause) : (s.raise c).cond = s.cond := rfl
@[simp] theorem State.raise_mem (s : State) (c : FaultCause) : (s.raise c).mem = s.mem := rfl
@[simp] theorem State.raise_running (s : State) (c : FaultCause) : (s.raise c).running = s.running := rfl
@[simp] theorem State.raise_fault (s : State) (c : FaultCause) : (s.raise c).fault = some c := rfl
@[simp] theorem State.raise_con (s : State) (c : FaultCause) : (s.raise c).con = s.con := rfl
@[simp] theorem State.raise_unfinished (s : State) (c : FaultCause) : (s.raise c).unfinished = s.unfinished := rfl
@[simp] theorem State.raise_getReg (s : State) (c : FaultCause) (j : RegIdx) : (s.raise c).getReg j = s.getReg j := rfl

/-! ## setcc -/

@[simp] theorem State.setcc_regs (s : State) (i : RegIdx) : (s.setcc i).regs = s.regs := rfl
@[simp] theorem State.setcc_pc (s : State) (i : RegIdx) : (s.setcc i).pc = s.pc := rfl
@[simp] theorem State.setcc_cond (s : State) (i : RegIdx) : (s.setcc i).cond = Cond.ofWord (s.getReg i) := rfl
@[simp] theorem State.setcc_mem (s : State) (i : RegIdx) : (s.setcc i).mem = s.mem := rfl
@[simp] theorem State.setcc_running (s : State) (i : RegIdx) : (s.setcc i).running = s.running := rfl
@[simp] theorem State.setcc_fault (s : State) (i : RegIdx) : (s.setcc i).fault = s.fault := rfl
@[simp] theorem State.setcc_con (s : State) (i : RegIdx) : (s.setcc i).con = s.con := rfl
@[simp] theorem State.setcc_unfinished (s : State) (i : RegIdx) : (s.setcc i).unfinished = s.unfinished := rfl
@[simp] theorem State.setcc_getReg (s : State) (i : RegIdx) (j : RegIdx) : (s.setcc i).getReg j = s.getReg j := rfl

/-! ## writeResult -/

@[simp] theorem State.writeResult_regs (s : State) (i : RegIdx) (v : Word) : (s.writeResult i v).regs = s.regs.set i.toNat v i.isLt := rfl
@[simp] theorem State.writeResult_pc (s : State) (i : RegIdx) (v : Word) : (s.writeResult i v).pc = s.pc := rfl
@[simp] theorem State.writeResult_mem (s : State) (i : RegIdx) (v : Word) : (s.writeResult i v).mem = s.mem := rfl
@[simp] theorem State.writeResult_running (s : State) (i : RegIdx) (v : Word) : (s.writeResult i v).running = s.running := rfl
@[simp] theorem State.writeResult_fault (s : State) (i : RegIdx) (v : Word) : (s.writeResult i v).fault = s.fault := rfl
@[simp] theorem State.writeResult_con (s : State) (i : RegIdx) (v : Word) : (s.writeResult i v).con = s.con := rfl
@[simp] theorem State.writeResult_unfinished (s : State) (i : RegIdx) (v : Word) : (s.writeResult i v).unfinished = s.unfinished := rfl

/-! ## link -/

@[simp] theorem State.link_pc (s : State) : s.link.pc = s.pc := rfl
@[simp] theorem State.link_cond (s : State) : s.link.cond = s.cond := rfl
@[simp] theorem State.link_mem (s : State) : s.link.mem = s.mem := rfl
@[simp] theorem State.link_running (s : State) : s.link.running = s.running := rfl
@[simp] theorem State.link_fault (s : State) : s.link.fault = s.fault := rfl
@[simp] theorem State.link_con (s : State) : s.link.con = s.con := rfl
@[simp] theorem State.link_unfinished (s : State) : s.link.unfinished = s.unfinished := rfl

/-! ## serveHalt -/

@[simp] theorem State.serveHalt_regs (s : State) : s.serveHalt.regs = s.regs := rfl
@[simp] theorem State.serveHalt_pc (s : State) : s.serveHalt.pc = s.pc := rfl
@[simp] theorem State.serveHalt_cond (s : State) : s.serveHalt.cond = s.cond := rfl
@[simp] theorem State.serveHalt_mem (s : State) : s.serveHalt.mem = s.mem := rfl
@[simp] theorem State.serveHalt_running (s : State) : s.serveHalt.running = false := rfl
@[simp] theorem State.serveHalt_fault (s : State) : s.serveHalt.fault = s.fault := rfl
@[simp] theorem State.serveHalt_con (s : State) : s.serveHalt.con = s.con := rfl
@[simp] theorem State.serveHalt_unfinished (s : State) : s.serveHalt.unfinished = s.unfinished := rfl
@[simp] theorem State.serveHalt_getReg (s : State) (j : RegIdx) : s.serveHalt.getReg j = s.getReg j := rfl

/-! ## Reading a register after a write (R21) -/

/-- A register reads as the value last written to it, and a write leaves every other register alone (R21). -/
@[simp] theorem State.setReg_getReg (s : State) (i : RegIdx) (v : Word) (j : RegIdx) :
    (s.setReg i v).getReg j = if j = i then v else s.getReg j := by
  have h : (i.toNat = j.toNat) = (j = i) := propext (BitVec.toNat_inj.trans eq_comm)
  simp only [State.getReg, State.setReg, Vector.getElem_set, h]

@[simp] theorem State.writeResult_getReg (s : State) (i : RegIdx) (v : Word) (j : RegIdx) :
    (s.writeResult i v).getReg j = if j = i then v else s.getReg j :=
  s.setReg_getReg i v j

/-- The flag after a result is the flag of that result (R26, R28). -/
@[simp] theorem State.writeResult_cond (s : State) (i : RegIdx) (v : Word) :
    (s.writeResult i v).cond = Cond.ofWord v := by
  simp [State.writeResult]

/-- R7 after a link is the PC (R144, R207). -/
@[simp] theorem State.link_getReg (s : State) (j : RegIdx) :
    s.link.getReg j = if j = 7 then s.pc else s.getReg j :=
  s.setReg_getReg 7 s.pc j

@[simp] theorem State.conFlush_eq (s : State) : s.conFlush = s := rfl

/-- Reading a register depends on the register file alone. -/
theorem State.getReg_congr {s t : State} (h : t.regs = s.regs) (j : RegIdx) : t.getReg j = s.getReg j := by
  rw [State.getReg, State.getReg]; simp only [h]

/-- Every register is 0 after reset (R37). -/
@[simp] theorem State.reset_getReg (i : RegIdx) : State.reset.getReg i = 0#16 := by
  simp [State.getReg, State.reset]

end Sys2Proof.Machine
end

