-- ==== Sys2Proof/Laws/Memory.lean ====
section
/-! SUPPORT. Stored memory: a read after a write, and the canonical form kept by every memory operation. -/

namespace Sys2Proof.Machine

/-- The two keyboard words are different words (R33). -/
@[simp] theorem kbsr_ne_kbdr : Config.kbsr ≠ Config.kbdr := by decide

@[simp] theorem kbdr_ne_kbsr : Config.kbdr ≠ Config.kbsr := by decide

/-! ## Reads after writes (R61) -/

theorem Memory.read_erase (m : Memory) (k : Nat) (b : Word) :
    Memory.read (m.erase k) b = if b.toNat = k then Memory.unlisted else m.read b := by
  induction m with
  | nil => simp [Memory.erase, Memory.read]
  | cons c m ih =>
    simp only [Memory.erase] at ih
    simp only [Memory.erase, List.filter_cons, decide_eq_true_eq, Memory.read]
    split <;> simp only [Memory.read, ih] <;> grind

theorem Memory.read_insert (m : Memory) (k : Nat) (v b : Word) (hk : ∀ c ∈ m, c.1 ≠ k) :
    Memory.read (m.insert k v) b = if b.toNat = k then v else m.read b := by
  induction m with
  | nil => simp [Memory.insert, Memory.read, eq_comm]
  | cons c m ih =>
    have hc := hk c (by simp)
    have ih := ih fun d hd => hk d (by simp [hd])
    simp only [Memory.insert]
    split <;> simp only [Memory.read, ih] <;> grind

/-- A read gives the value last written to its address, and a write leaves every other address alone (R54, R61). -/
theorem Memory.read_write (m : Memory) (a v b : Word) :
    (m.write a v).read b = if b = a then v else m.read b := by
  have hab : (b.toNat = a.toNat) = (b = a) := by rw [BitVec.toNat_inj]
  unfold Memory.write
  split
  · next h => simp only [Memory.read_erase, hab, h]
  · rw [Memory.read_insert _ _ _ _ (by simp [Memory.erase]), Memory.read_erase]
    simp only [hab]
    split <;> rfl

@[simp] theorem Memory.read_write_self (m : Memory) (a v : Word) : (m.write a v).read a = v := by
  simp [Memory.read_write]

@[simp] theorem Memory.read_nil (a : Word) : Memory.read [] a = 0#16 := rfl

/-! ## The canonical form -/

theorem Memory.wf_erase {m : Memory} (h : m.wf) (k : Nat) : (m.erase k).wf :=
  ⟨h.1.filter _, fun c hc => h.2 c (List.mem_filter.mp hc).1⟩

theorem Memory.mem_insert {m : Memory} {k : Nat} {v : Word} {c : Nat × Word} :
    c ∈ m.insert k v ↔ c = (k, v) ∨ c ∈ m := by
  induction m with
  | nil => simp [Memory.insert]
  | cons d m ih =>
    simp only [Memory.insert]
    split
    · simp
    · rw [List.mem_cons, ih, List.mem_cons, or_left_comm]

theorem Memory.wf_insert {m : Memory} (h : m.wf) {k : Nat} {v : Word} (hk : k < 65536) (hv : v ≠ Memory.unlisted)
    (hne : ∀ c ∈ m, c.1 ≠ k) : (m.insert k v).wf := by
  refine ⟨?_, fun c hc => ?_⟩
  · induction m with
    | nil => simp [Memory.insert]
    | cons d m ih =>
      have hd := List.pairwise_cons.mp h.1
      have ih := ih ⟨hd.2, fun c hc => h.2 c (by simp [hc])⟩ fun c hc => hne c (by simp [hc])
      simp only [Memory.insert]
      split
      · next hlt =>
        refine List.pairwise_cons.mpr ⟨fun c hc => ?_, h.1⟩
        rcases List.mem_cons.mp hc with rfl | hc
        · exact hlt
        · exact Nat.lt_trans hlt (hd.1 c hc)
      · next hlt =>
        refine List.pairwise_cons.mpr ⟨fun c hc => ?_, ih⟩
        rcases Memory.mem_insert.mp hc with rfl | hc
        · have := hne d (by simp); omega
        · exact hd.1 c hc
  · rcases Memory.mem_insert.mp hc with rfl | hc
    · exact ⟨hk, hv⟩
    · exact h.2 c hc

/-- A write keeps the canonical form. -/
theorem Memory.wf_write {m : Memory} (h : m.wf) (a v : Word) : (m.write a v).wf := by
  unfold Memory.write
  split
  · exact Memory.wf_erase h _
  · next hv => exact Memory.wf_insert (Memory.wf_erase h _) a.isLt hv (by simp [Memory.erase])

theorem State.reset_mem_wf : State.reset.mem.wf :=
  ⟨List.Pairwise.nil, fun _ hc => absurd hc List.not_mem_nil⟩

end Sys2Proof.Machine
end

