-- ==== Sys2Proof/Laws/Access.lean ====
section
/-! SUPPORT. What one look at the console, one memory access, one fetch and one blocking read can do: the lemmas to cite
instead of unfolding `look`, `pollKeyboard`, `memRead`, `fetch` and `blockingRead`. -/

namespace Sys2Proof.Safety

open Sys2Proof.Machine

theorem Advances.refl (c : Console) : Advances c c :=
  ⟨⟨[], rfl⟩, id, Nat.le_refl _, ⟨[], (List.append_nil _).symm⟩⟩

theorem Advances.trans {c d e : Console} (h : Advances c d) (k : Advances d e) : Advances c e := by
  obtain ⟨p, hp⟩ := h.input
  obtain ⟨q, hq⟩ := k.input
  obtain ⟨x, hx⟩ := h.output
  obtain ⟨y, hy⟩ := k.output
  exact ⟨⟨p ++ q, by rw [hp, hq, List.append_assoc]⟩, k.ended ∘ h.ended, Nat.le_trans h.clock k.clock,
    ⟨x ++ y, by rw [hy, hx, List.append_assoc]⟩⟩

end Sys2Proof.Safety

namespace Sys2Proof.Machine

open Sys2Proof.Safety

/-! ## The console (R35, R66, R68) -/

/-- A look takes the first settled moment, where there is one (R66). -/
theorem Console.look_cons {c : Console} {e : ConEvent} {rest : List ConEvent} (h : c.input = e :: rest) :
    c.look = (some e, { c with input := rest }) := by
  rw [Console.look, h]

/-- A look at an ended input finds the end, again and again (R67). -/
theorem Console.look_ended {c : Console} (h : c.input = []) (he : c.ended = true) : c.look = (none, c) := by
  rw [Console.look, h]; exact if_pos he

/-- A look past the settled moments takes the next free one (U11). -/
theorem Console.look_free {c : Console} (h : c.input = []) (he : c.ended = false) :
    c.look = (Config.conMoment c.clock,
      { c with clock := c.clock + 1, ended := (Config.conMoment c.clock).isNone }) := by
  rw [Console.look, h]; exact if_neg (by rw [he]; exact Bool.false_ne_true)

/-- All that a look can do to the console: it takes one moment, and leaves the output alone. -/
theorem Console.look_advances (c : Console) : Advances c c.look.2 ∧ c.look.2.output = c.output := by
  rcases hi : c.input with _ | ⟨e, rest⟩
  · rcases he : c.ended with _ | _
    · rw [Console.look_free hi he]
      exact ⟨⟨⟨[], rfl⟩, fun h => absurd (he.symm.trans h) Bool.false_ne_true, Nat.le_succ _,
        ⟨[], (List.append_nil _).symm⟩⟩, rfl⟩
    · rw [Console.look_ended hi he]
      exact ⟨Advances.refl c, rfl⟩
  · rw [Console.look_cons hi]
    exact ⟨⟨⟨[e], hi⟩, id, Nat.le_refl _, ⟨[], (List.append_nil _).symm⟩⟩, rfl⟩

/-- Output does not change what the input offers (R35). -/
theorem Console.look_put (c : Console) (bs : List Byte) : (c.put bs).look = (c.look.1, c.look.2.put bs) := by
  rcases hi : c.input with _ | ⟨e, rest⟩
  · rcases he : c.ended with _ | _
    · rw [Console.look_free (c := c.put bs) hi he, Console.look_free hi he]; rfl
    · rw [Console.look_ended (c := c.put bs) hi he, Console.look_ended hi he]
  · rw [Console.look_cons (c := c.put bs) hi, Console.look_cons hi]; rfl

theorem Console.put_advances (c : Console) (bs : List Byte) : Advances c (c.put bs) :=
  ⟨⟨[], rfl⟩, id, Nat.le_refl _, ⟨bs, rfl⟩⟩

@[simp] theorem Console.put_put (c : Console) (xs ys : List Byte) : (c.put xs).put ys = c.put (xs ++ ys) := by
  simp only [Console.put, List.append_assoc]

@[simp] theorem Console.put_output (c : Console) (bs : List Byte) : (c.put bs).output = c.output ++ bs := rfl

/-! ## The keyboard poll (R51) -/

/-- A poll changes the keyboard words and takes one moment of the console, and nothing else. -/
theorem State.pollKeyboard_eq (s : State) : ∃ m, s.pollKeyboard = { s with mem := m, con := s.con.look.2 } := by
  unfold State.pollKeyboard
  split <;> exact ⟨_, rfl⟩

/-- The memory a poll leaves: the status word cleared, or marked ready beside the byte in the data word (R51, R52). -/
theorem State.pollKeyboard_mem (s : State) :
    s.pollKeyboard.mem =
      match offeredByte s.con.look.1 with
      | some b =>
          (s.mem.write Config.kbsr (s.mem.read Config.kbsr ||| Config.kbsrReady)).write Config.kbdr (b.setWidth 16)
      | none => s.mem.write Config.kbsr 0x0000#16 := by
  rcases h : offeredByte s.con.look.1 with _ | b <;> simp only [State.pollKeyboard, State.conPoll, h] <;> rfl

/-- A read changes memory and the console at most. -/
theorem State.afterRead_eq (s : State) (a : Word) :
    ∃ m, s.afterRead a = { s with mem := m, con := if a = Config.kbsr then s.con.look.2 else s.con } := by
  unfold State.afterRead
  split
  · exact s.pollKeyboard_eq
  · exact ⟨s.mem, rfl⟩

/-- A read of any address but 0xFE00 changes nothing (R51). -/
@[simp] theorem State.afterRead_of_ne {s : State} {a : Word} (h : a ≠ Config.kbsr) : s.afterRead a = s :=
  if_neg h

theorem State.afterRead_kbsr (s : State) : s.afterRead Config.kbsr = s.pollKeyboard :=
  if_pos rfl

@[simp] theorem State.afterRead_regs (s : State) (a : Word) : (s.afterRead a).regs = s.regs := by
  obtain ⟨m, h⟩ := s.afterRead_eq a; rw [h]
@[simp] theorem State.afterRead_getReg (s : State) (a : Word) (j : RegIdx) :
    (s.afterRead a).getReg j = s.getReg j := by
  obtain ⟨m, h⟩ := s.afterRead_eq a; rw [h]; rfl
@[simp] theorem State.afterRead_pc (s : State) (a : Word) : (s.afterRead a).pc = s.pc := by
  obtain ⟨m, h⟩ := s.afterRead_eq a; rw [h]
@[simp] theorem State.afterRead_cond (s : State) (a : Word) : (s.afterRead a).cond = s.cond := by
  obtain ⟨m, h⟩ := s.afterRead_eq a; rw [h]
@[simp] theorem State.afterRead_running (s : State) (a : Word) : (s.afterRead a).running = s.running := by
  obtain ⟨m, h⟩ := s.afterRead_eq a; rw [h]
@[simp] theorem State.afterRead_fault (s : State) (a : Word) : (s.afterRead a).fault = s.fault := by
  obtain ⟨m, h⟩ := s.afterRead_eq a; rw [h]
@[simp] theorem State.afterRead_unfinished (s : State) (a : Word) : (s.afterRead a).unfinished = s.unfinished := by
  obtain ⟨m, h⟩ := s.afterRead_eq a; rw [h]
/-- A read takes one moment of the console where its address is 0xFE00, and none elsewhere (R51, R66). -/
theorem State.afterRead_con (s : State) (a : Word) :
    (s.afterRead a).con = if a = Config.kbsr then s.con.look.2 else s.con := by
  obtain ⟨m, h⟩ := s.afterRead_eq a; rw [h]

/-- A read takes from the console input at most. -/
theorem State.afterRead_advances (s : State) (a : Word) :
    Advances s.con (s.afterRead a).con ∧ (s.afterRead a).con.output = s.con.output := by
  rw [State.afterRead_con]
  split
  · exact s.con.look_advances
  · exact ⟨Advances.refl _, rfl⟩

/-- Only the keyboard words can change at a read (R51). -/
theorem State.afterRead_memFrame (s : State) (a : Word) : MemFrame s (s.afterRead a) [Config.kbsr, Config.kbdr] := by
  intro b hb
  simp only [List.mem_cons, List.not_mem_nil, or_false, not_or] at hb
  by_cases h : a = Config.kbsr
  · rw [h, State.afterRead_kbsr, State.pollKeyboard_mem]
    split <;> simp only [Memory.read_write, if_neg hb.1, if_neg hb.2]
  · rw [State.afterRead_of_ne h]

/-- A read keeps the canonical form of memory. -/
theorem State.afterRead_wf {s : State} (h : s.mem.wf) (a : Word) : (s.afterRead a).mem.wf := by
  by_cases ha : a = Config.kbsr
  · rw [ha, State.afterRead_kbsr, State.pollKeyboard_mem]
    split
    · exact Memory.wf_write (Memory.wf_write h _ _) _ _
    · exact Memory.wf_write h _ _
  · rwa [State.afterRead_of_ne ha]

@[simp] theorem State.memRead_snd (s : State) (a : Word) : (s.memRead a).2 = s.afterRead a := rfl

theorem State.memRead_fst (s : State) (a : Word) : (s.memRead a).1 = (s.afterRead a).mem.read a := rfl

/-- A read of any address but 0xFE00 gives the stored word (R51). -/
theorem State.memRead_of_ne {s : State} {a : Word} (h : a ≠ Config.kbsr) : s.memRead a = (s.mem.read a, s) := by
  simp only [State.memRead, State.afterRead_of_ne h]

/-- A read of 0xFE00 that finds no byte gives 0 and stores it (R51). -/
theorem State.memRead_kbsr_none {s : State} (h : offeredByte s.con.look.1 = none) :
    s.memRead Config.kbsr = (0x0000#16, (s.setCon s.con.look.2).memWrite Config.kbsr 0x0000#16) := by
  have hp : s.afterRead Config.kbsr = (s.setCon s.con.look.2).memWrite Config.kbsr 0x0000#16 := by
    rw [State.afterRead_kbsr, State.pollKeyboard, State.conPoll, h]
  rw [State.memRead, hp, State.memWrite_mem, Memory.read_write_self]

/-- A read of 0xFE00 that finds a byte gives the status word with bit 15 set, and stores both words (R51, R52). -/
theorem State.memRead_kbsr_byte {s : State} {b : Byte} (h : offeredByte s.con.look.1 = some b) :
    s.memRead Config.kbsr =
      (s.mem.read Config.kbsr ||| Config.kbsrReady,
        ((s.setCon s.con.look.2).memWrite Config.kbsr (s.mem.read Config.kbsr ||| Config.kbsrReady)).memWrite
          Config.kbdr (b.setWidth 16)) := by
  have hp : s.afterRead Config.kbsr =
      ((s.setCon s.con.look.2).memWrite Config.kbsr (s.mem.read Config.kbsr ||| Config.kbsrReady)).memWrite
        Config.kbdr (b.setWidth 16) := by
    rw [State.afterRead_kbsr, State.pollKeyboard, State.conPoll, h]
  rw [State.memRead, hp, State.memWrite_mem, Memory.read_write, if_neg kbsr_ne_kbdr, State.memWrite_mem,
    Memory.read_write_self]

/-- The fetch reads at the old PC and leaves the incremented PC (R121). -/
theorem State.fetch_eq (s : State) :
    s.fetch = ((s.memRead s.pc).1, (s.afterRead s.pc).setPc (s.pc + 1)) := rfl

/-! ## The blocking read (R67) -/

/-- A blocking read that is offered a byte completes (R67). -/
theorem State.blockingRead_of_byte {s : State} {c : Byte} (r : BlockedRead) (h : s.con.look.1 = some (.byte c)) :
    s.blockingRead r = ((s.setCon s.con.look.2).setUnfinished none).deliver r c := by
  rw [State.blockingRead, h]

/-- A blocking read at a quiet moment goes on waiting (R67). -/
theorem State.blockingRead_of_quiet {s : State} (r : BlockedRead) (h : s.con.look.1 = some .quiet) :
    s.blockingRead r = (s.setCon s.con.look.2).setUnfinished (some (.reading r)) := by
  rw [State.blockingRead, h]

/-- A blocking read at the end of the input raises (R67). -/
theorem State.blockingRead_of_end {s : State} (r : BlockedRead) (h : s.con.look.1 = none) :
    s.blockingRead r = ((s.setCon s.con.look.2).setUnfinished none).raise .consoleEndOfInput := by
  rw [State.blockingRead, h]

/-- Everything a blocking read can do: complete with a byte, wait, or raise at the end of the input. -/
theorem State.blockingRead_cases (s : State) (r : BlockedRead) :
    (∃ c, s.con.look.1 = some (.byte c) ∧
      s.blockingRead r = ((s.setCon s.con.look.2).setUnfinished none).deliver r c) ∨
    (s.con.look.1 = some .quiet ∧
      s.blockingRead r = (s.setCon s.con.look.2).setUnfinished (some (.reading r))) ∨
    (s.con.look.1 = none ∧
      s.blockingRead r = ((s.setCon s.con.look.2).setUnfinished none).raise .consoleEndOfInput) := by
  rcases h : s.con.look.1 with _ | _ | _
  · exact .inr (.inr ⟨rfl, State.blockingRead_of_end r h⟩)
  · exact .inl ⟨_, rfl, State.blockingRead_of_byte r h⟩
  · exact .inr (.inl ⟨rfl, State.blockingRead_of_quiet r h⟩)

/-- What delivering a byte leaves: R0, and for IN the echo (R172, R175). -/
theorem State.deliver_eq (s : State) (r : BlockedRead) (c : Byte) :
    s.deliver r c = (s.conPutAll (match r with | .getc => [] | .inp => [c])).setReg 0 (zext c) := by
  cases r
  · rw [State.deliver, State.conPutAll, Console.put, List.append_nil]; rfl
  · rfl

/-- A blocking read takes one moment of the input, and for IN adds the echo to the output. -/
theorem State.blockingRead_advances (s : State) (r : BlockedRead) : Advances s.con (s.blockingRead r).con := by
  rcases s.blockingRead_cases r with ⟨c, -, h⟩ | ⟨-, h⟩ | ⟨-, h⟩ <;> rw [h]
  · rw [State.deliver_eq]
    exact s.con.look_advances.1.trans (Console.put_advances _ _)
  · exact s.con.look_advances.1
  · exact s.con.look_advances.1

end Sys2Proof.Machine
end

