-- ==== Sys2Proof/Laws/Encode.lean ====
section
/-! SUPPORT. Reading a field back from a word the encoder built, and the opcode map read both ways. -/

namespace Sys2Proof

/-- The bits of a placed field: those of the field, shifted up. -/
theorem field_getLsbD {n : Nat} (v : BitVec n) (lo k : Nat) (hk : k < 16) :
    (field v lo).getLsbD k = (decide (lo ≤ k) && v.getLsbD (k - lo)) := by
  rw [field, BitVec.getLsbD_shiftLeft, BitVec.getLsbD_setWidth, decide_eq_true hk]
  by_cases h : lo ≤ k
  · rw [decide_eq_false (Nat.not_lt.mpr h), decide_eq_true h, decide_eq_true (by omega)]; simp
  · rw [decide_eq_true (Nat.lt_of_not_le h), decide_eq_false h]; simp

/-- A field reads back from where it was placed. -/
theorem field_extract_self {n : Nat} (v : BitVec n) (lo : Nat) (h : lo + n ≤ 16) :
    (field v lo).extractLsb' lo n = v := by
  apply BitVec.eq_of_getLsbD_eq
  intro k hk
  rw [BitVec.getLsbD_extractLsb', field_getLsbD _ _ _ (by omega), decide_eq_true hk, decide_eq_true (by omega)]
  simp

/-- A field leaves 0 everywhere else. -/
theorem field_extract_other {n : Nat} (v : BitVec n) (lo start len : Nat) (h : start + len ≤ 16)
    (ho : start + len ≤ lo ∨ lo + n ≤ start) : (field v lo).extractLsb' start len = 0#len := by
  apply BitVec.eq_of_getLsbD_eq
  intro k hk
  rw [BitVec.getLsbD_extractLsb', field_getLsbD _ _ _ (by omega), BitVec.getLsbD_zero]
  rcases ho with ho | ho
  · rw [decide_eq_false (by omega : ¬ lo ≤ start + k)]; simp
  · rw [BitVec.getLsbD_of_ge v _ (by omega)]; simp

@[simp] theorem opcodeOf_opcodeValue (o : Opcode) : opcodeOf (opcodeValue o) = o := by
  cases o <;> rfl

@[simp] theorem opcodeValue_opcodeOf (v : BitVec 4) : opcodeValue (opcodeOf v) = v := by
  revert v; decide

/-- Naming changes nothing but a JMP and a TRAP. -/
theorem nameAlias_eq_self {i : Instr} (hj : ∀ b, i ≠ .jmp b) (ht : ∀ v, i ≠ .trap v) : nameAlias i = i := by
  cases i <;> first | rfl | exact absurd rfl (hj _) | exact absurd rfl (ht _)

end Sys2Proof
end

