-- ==== Sys2Proof/Laws/Frames.lean ====
section
/-! SUPPORT. The frames of Safety.lean: what each shared operation that ends an instruction leaves unchanged. -/

namespace Sys2Proof.Machine

open Sys2Proof.Safety

theorem regsFrame_of_regs {s t : State} (h : t.regs = s.regs) (ds : List RegIdx) : RegsFrame s t ds :=
  fun i _ => State.getReg_congr h i

theorem memFrame_of_mem {s t : State} (h : t.mem = s.mem) (ws : List Word) : MemFrame s t ws :=
  fun a _ => by rw [h]

/-- How the seven flag-writing instructions end (R28). -/
theorem State.writeResult_writes (s : State) (dr : RegIdx) (v : Word) : WritesResult s (s.writeResult dr v) dr v := by
  refine ⟨by simp, by simp, fun i hi => ?_, rfl, memFrame_of_mem rfl _, rfl, ⟨rfl, rfl, rfl⟩⟩
  rw [List.mem_singleton] at hi
  rw [State.writeResult_getReg, if_neg hi]

/-- A load after an access that left registers, PC, output, status and all memory but the keyboard words as they
were. -/
theorem State.writeResult_loads {s r : State} (dr : RegIdx) (v : Word) (hregs : RegsFrame s r []) (hpc : r.pc = s.pc)
    (hmem : MemFrame s r [Config.kbsr, Config.kbdr]) (hout : r.con.output = s.con.output) (hst : StatusFrame s r) :
    LoadsResult s r (r.writeResult dr v) dr v := by
  obtain ⟨h1, h2, h3, -, h5, h6, -⟩ := r.writeResult_writes dr v
  exact ⟨h1, h2, fun i hi => (h3 i hi).trans (hregs i List.not_mem_nil), hpc, h5,
    fun a ha => hmem a ha, h6, hout, hst⟩

/-- A store changes the one word (R54). -/
theorem State.memWrite_frame (s : State) (a v : Word) : MemFrame s (s.memWrite a v) [a] := by
  intro b hb
  rw [List.mem_singleton] at hb
  rw [State.memWrite_mem, Memory.read_write, if_neg hb]

theorem State.setPc_jumps (s : State) (a : Word) : JumpsTo s (s.setPc a) a [] :=
  ⟨rfl, regsFrame_of_regs rfl _, rfl, memFrame_of_mem rfl _, rfl, ⟨rfl, rfl, rfl⟩⟩

/-- A jump that saves the return address in R7 (R144). -/
theorem State.link_setPc_jumps (s : State) (a : Word) : JumpsTo s (s.link.setPc a) a [7] := by
  refine ⟨rfl, fun i hi => ?_, rfl, memFrame_of_mem rfl _, rfl, ⟨rfl, rfl, rfl⟩⟩
  rw [List.mem_singleton] at hi
  rw [State.setPc_getReg, State.link_getReg, if_neg hi]

/-- What a read leaves unchanged (R51). -/
theorem State.afterRead_frames (s : State) (a : Word) :
    RegsFrame s (s.afterRead a) [] ∧ (s.afterRead a).pc = s.pc ∧
      MemFrame s (s.afterRead a) [Config.kbsr, Config.kbdr] ∧
      (s.afterRead a).con.output = s.con.output ∧ StatusFrame s (s.afterRead a) :=
  ⟨regsFrame_of_regs (by simp) _, by simp, s.afterRead_memFrame a, (s.afterRead_advances a).2,
    by simp, by simp, by simp⟩

/-- Everything a blocking read leaves alone: PC, the flag, the run bit, memory, and every register but R0. -/
theorem State.blockingRead_frames (s : State) (r : BlockedRead) :
    RegsFrame s (s.blockingRead r) [0] ∧ (s.blockingRead r).pc = s.pc ∧ (s.blockingRead r).cond = s.cond ∧
      (s.blockingRead r).mem = s.mem ∧ (s.blockingRead r).running = s.running := by
  rcases s.blockingRead_cases r with ⟨c, -, h⟩ | ⟨-, h⟩ | ⟨-, h⟩ <;> rw [h]
  · rw [State.deliver_eq]
    refine ⟨fun i hi => ?_, rfl, rfl, rfl, rfl⟩
    rw [List.mem_singleton] at hi
    rw [State.setReg_getReg, if_neg hi]; rfl
  · exact ⟨regsFrame_of_regs rfl _, rfl, rfl, rfl, rfl⟩
  · exact ⟨regsFrame_of_regs rfl _, rfl, rfl, rfl, rfl⟩

end Sys2Proof.Machine
end

