-- ==== Sys2Proof/Laws/PerInstr.lean ====
section
/-! SUPPORT. Statements about every instruction as syntax, one lemma per constructor (LAWS.json). -/

namespace Sys2Proof.Laws

/-- The opcode of R96 stands in bits 15:12 of the encoded word. -/
def OpcodeField.Statement (i : Instr) : Prop :=
  (encode i).extractLsb' 12 4 = opcodeValue (opcodeOfInstr i)

/-- The name the decoder gives an instruction is the well-formed one, and stays in its decoder row (R101, R102). -/
def NamedForm.Statement (i : Instr) : Prop :=
  WellFormed (nameAlias i) = true ∧ rowOf (nameAlias i) = rowOf i

theorem OpcodeField.br (nzp : BitVec 3) (off : BitVec 9) : OpcodeField.Statement (.br nzp off) := by
  simp (disch := omega) only [OpcodeField.Statement, encode, opcodeOfInstr, BitVec.extractLsb'_or, field_extract_self,
    field_extract_other, BitVec.or_zero]

theorem OpcodeField.addReg (dr sr1 sr2 : RegIdx) : OpcodeField.Statement (.addReg dr sr1 sr2) := by
  simp (disch := omega) only [OpcodeField.Statement, encode, opcodeOfInstr, BitVec.extractLsb'_or, field_extract_self,
    field_extract_other, BitVec.or_zero]

theorem OpcodeField.addImm (dr sr1 : RegIdx) (imm : BitVec 5) : OpcodeField.Statement (.addImm dr sr1 imm) := by
  simp (disch := omega) only [OpcodeField.Statement, encode, opcodeOfInstr, BitVec.extractLsb'_or, field_extract_self,
    field_extract_other, BitVec.or_zero]

theorem OpcodeField.ld (dr : RegIdx) (off : BitVec 9) : OpcodeField.Statement (.ld dr off) := by
  simp (disch := omega) only [OpcodeField.Statement, encode, opcodeOfInstr, BitVec.extractLsb'_or, field_extract_self,
    field_extract_other, BitVec.or_zero]

theorem OpcodeField.st (sr : RegIdx) (off : BitVec 9) : OpcodeField.Statement (.st sr off) := by
  simp (disch := omega) only [OpcodeField.Statement, encode, opcodeOfInstr, BitVec.extractLsb'_or, field_extract_self,
    field_extract_other, BitVec.or_zero]

theorem OpcodeField.jsrr (base : RegIdx) : OpcodeField.Statement (.jsrr base) := by
  simp (disch := omega) only [OpcodeField.Statement, encode, opcodeOfInstr, BitVec.extractLsb'_or, field_extract_self,
    field_extract_other, BitVec.or_zero]

theorem OpcodeField.jsr (off : BitVec 11) : OpcodeField.Statement (.jsr off) := by
  simp (disch := omega) only [OpcodeField.Statement, encode, opcodeOfInstr, BitVec.extractLsb'_or, field_extract_self,
    field_extract_other, BitVec.or_zero]

theorem OpcodeField.andReg (dr sr1 sr2 : RegIdx) : OpcodeField.Statement (.andReg dr sr1 sr2) := by
  simp (disch := omega) only [OpcodeField.Statement, encode, opcodeOfInstr, BitVec.extractLsb'_or, field_extract_self,
    field_extract_other, BitVec.or_zero]

theorem OpcodeField.andImm (dr sr1 : RegIdx) (imm : BitVec 5) : OpcodeField.Statement (.andImm dr sr1 imm) := by
  simp (disch := omega) only [OpcodeField.Statement, encode, opcodeOfInstr, BitVec.extractLsb'_or, field_extract_self,
    field_extract_other, BitVec.or_zero]

theorem OpcodeField.ldr (dr base : RegIdx) (off : BitVec 6) : OpcodeField.Statement (.ldr dr base off) := by
  simp (disch := omega) only [OpcodeField.Statement, encode, opcodeOfInstr, BitVec.extractLsb'_or, field_extract_self,
    field_extract_other, BitVec.or_zero]

theorem OpcodeField.str (sr base : RegIdx) (off : BitVec 6) : OpcodeField.Statement (.str sr base off) := by
  simp (disch := omega) only [OpcodeField.Statement, encode, opcodeOfInstr, BitVec.extractLsb'_or, field_extract_self,
    field_extract_other, BitVec.or_zero]

theorem OpcodeField.rti : OpcodeField.Statement .rti := by
  exact field_extract_self _ 12 (by decide)

theorem OpcodeField.not (dr sr : RegIdx) : OpcodeField.Statement (.not dr sr) := by
  simp (disch := omega) only [OpcodeField.Statement, encode, opcodeOfInstr, BitVec.extractLsb'_or, field_extract_self,
    field_extract_other, BitVec.or_zero]

theorem OpcodeField.ldi (dr : RegIdx) (off : BitVec 9) : OpcodeField.Statement (.ldi dr off) := by
  simp (disch := omega) only [OpcodeField.Statement, encode, opcodeOfInstr, BitVec.extractLsb'_or, field_extract_self,
    field_extract_other, BitVec.or_zero]

theorem OpcodeField.sti (sr : RegIdx) (off : BitVec 9) : OpcodeField.Statement (.sti sr off) := by
  simp (disch := omega) only [OpcodeField.Statement, encode, opcodeOfInstr, BitVec.extractLsb'_or, field_extract_self,
    field_extract_other, BitVec.or_zero]

theorem OpcodeField.jmp (base : RegIdx) : OpcodeField.Statement (.jmp base) := by
  simp (disch := omega) only [OpcodeField.Statement, encode, opcodeOfInstr, BitVec.extractLsb'_or, field_extract_self,
    field_extract_other, BitVec.or_zero]

theorem OpcodeField.res : OpcodeField.Statement .res := by
  exact field_extract_self _ 12 (by decide)

theorem OpcodeField.lea (dr : RegIdx) (off : BitVec 9) : OpcodeField.Statement (.lea dr off) := by
  simp (disch := omega) only [OpcodeField.Statement, encode, opcodeOfInstr, BitVec.extractLsb'_or, field_extract_self,
    field_extract_other, BitVec.or_zero]

theorem OpcodeField.trap (v : BitVec 8) : OpcodeField.Statement (.trap v) := by
  simp (disch := omega) only [OpcodeField.Statement, encode, opcodeOfInstr, BitVec.extractLsb'_or, field_extract_self,
    field_extract_other, BitVec.or_zero]

theorem OpcodeField.ret : OpcodeField.Statement .ret := by
  simp (disch := omega) only [OpcodeField.Statement, encode, opcodeOfInstr, BitVec.extractLsb'_or, field_extract_self,
    field_extract_other, BitVec.or_zero]

theorem OpcodeField.getc : OpcodeField.Statement .getc := by
  simp (disch := omega) only [OpcodeField.Statement, encode, opcodeOfInstr, BitVec.extractLsb'_or, field_extract_self,
    field_extract_other, BitVec.or_zero]

theorem OpcodeField.out : OpcodeField.Statement .out := by
  simp (disch := omega) only [OpcodeField.Statement, encode, opcodeOfInstr, BitVec.extractLsb'_or, field_extract_self,
    field_extract_other, BitVec.or_zero]

theorem OpcodeField.puts : OpcodeField.Statement .puts := by
  simp (disch := omega) only [OpcodeField.Statement, encode, opcodeOfInstr, BitVec.extractLsb'_or, field_extract_self,
    field_extract_other, BitVec.or_zero]

theorem OpcodeField.inp : OpcodeField.Statement .inp := by
  simp (disch := omega) only [OpcodeField.Statement, encode, opcodeOfInstr, BitVec.extractLsb'_or, field_extract_self,
    field_extract_other, BitVec.or_zero]

theorem OpcodeField.putsp : OpcodeField.Statement .putsp := by
  simp (disch := omega) only [OpcodeField.Statement, encode, opcodeOfInstr, BitVec.extractLsb'_or, field_extract_self,
    field_extract_other, BitVec.or_zero]

theorem OpcodeField.halt : OpcodeField.Statement .halt := by
  simp (disch := omega) only [OpcodeField.Statement, encode, opcodeOfInstr, BitVec.extractLsb'_or, field_extract_self,
    field_extract_other, BitVec.or_zero]

theorem NamedForm.br (nzp : BitVec 3) (off : BitVec 9) : NamedForm.Statement (.br nzp off) := ⟨rfl, rfl⟩

theorem NamedForm.addReg (dr sr1 sr2 : RegIdx) : NamedForm.Statement (.addReg dr sr1 sr2) := ⟨rfl, rfl⟩

theorem NamedForm.addImm (dr sr1 : RegIdx) (imm : BitVec 5) : NamedForm.Statement (.addImm dr sr1 imm) := ⟨rfl, rfl⟩

theorem NamedForm.ld (dr : RegIdx) (off : BitVec 9) : NamedForm.Statement (.ld dr off) := ⟨rfl, rfl⟩

theorem NamedForm.st (sr : RegIdx) (off : BitVec 9) : NamedForm.Statement (.st sr off) := ⟨rfl, rfl⟩

theorem NamedForm.jsrr (base : RegIdx) : NamedForm.Statement (.jsrr base) := ⟨rfl, rfl⟩

theorem NamedForm.jsr (off : BitVec 11) : NamedForm.Statement (.jsr off) := ⟨rfl, rfl⟩

theorem NamedForm.andReg (dr sr1 sr2 : RegIdx) : NamedForm.Statement (.andReg dr sr1 sr2) := ⟨rfl, rfl⟩

theorem NamedForm.andImm (dr sr1 : RegIdx) (imm : BitVec 5) : NamedForm.Statement (.andImm dr sr1 imm) := ⟨rfl, rfl⟩

theorem NamedForm.ldr (dr base : RegIdx) (off : BitVec 6) : NamedForm.Statement (.ldr dr base off) := ⟨rfl, rfl⟩

theorem NamedForm.str (sr base : RegIdx) (off : BitVec 6) : NamedForm.Statement (.str sr base off) := ⟨rfl, rfl⟩

theorem NamedForm.rti : NamedForm.Statement .rti := ⟨rfl, rfl⟩

theorem NamedForm.not (dr sr : RegIdx) : NamedForm.Statement (.not dr sr) := ⟨rfl, rfl⟩

theorem NamedForm.ldi (dr : RegIdx) (off : BitVec 9) : NamedForm.Statement (.ldi dr off) := ⟨rfl, rfl⟩

theorem NamedForm.sti (sr : RegIdx) (off : BitVec 9) : NamedForm.Statement (.sti sr off) := ⟨rfl, rfl⟩

theorem NamedForm.jmp (base : RegIdx) : NamedForm.Statement (.jmp base) := by
  by_cases h : base = 7#3 <;> simp [NamedForm.Statement, nameAlias, WellFormed, rowOf, h]

theorem NamedForm.res : NamedForm.Statement .res := ⟨rfl, rfl⟩

theorem NamedForm.lea (dr : RegIdx) (off : BitVec 9) : NamedForm.Statement (.lea dr off) := ⟨rfl, rfl⟩

theorem NamedForm.trap (v : BitVec 8) : NamedForm.Statement (.trap v) := by
  revert v
  simp only [NamedForm.Statement]
  decide +kernel

theorem NamedForm.ret : NamedForm.Statement .ret := ⟨rfl, rfl⟩

theorem NamedForm.getc : NamedForm.Statement .getc := ⟨rfl, rfl⟩

theorem NamedForm.out : NamedForm.Statement .out := ⟨rfl, rfl⟩

theorem NamedForm.puts : NamedForm.Statement .puts := ⟨rfl, rfl⟩

theorem NamedForm.inp : NamedForm.Statement .inp := ⟨rfl, rfl⟩

theorem NamedForm.putsp : NamedForm.Statement .putsp := ⟨rfl, rfl⟩

theorem NamedForm.halt : NamedForm.Statement .halt := ⟨rfl, rfl⟩

end Sys2Proof.Laws
end

