-- ==== Sys2Proof/Laws/Scan.lean ====
section
/-! SUPPORT. The string scans of PUTS and PUTSP: everything one step of a scan can do, in the terms of the loops of R174
and R176, and what such a loop leaves unchanged. -/

namespace Sys2Proof.Machine

open Sys2Proof.Safety

/-! ## One step of a scan follows its loop -/

theorem add_ofNat_succ (a : Word) (n : Nat) : a + 1 + BitVec.ofNat 16 n = a + BitVec.ofNat 16 (n + 1) := by
  rw [BitVec.add_assoc, BitVec.add_comm 1]
  exact congrArg (a + ·) (BitVec.ofNat_add n 1).symm

/-- The address after the words that one step reads is the one after 0xFE00. -/
theorem add_wordsToPoll (a : Word) : a + BitVec.ofNat 16 (wordsToPoll a) = 0xFE01#16 := by
  have h : BitVec.ofNat 16 (wordsToPoll a) = Config.kbsr - a + 1 := by
    rw [wordsToPoll, BitVec.ofNat_add, BitVec.ofNat_toNat, BitVec.setWidth_eq]; rfl
  rw [h]
  bv_omega

theorem putsScan_spec (n : Nat) (s : State) (a : Word) :
    (∃ m, m < n ∧ PutsEnds m s a (putsScan n s a)) ∨
      ∃ u, PutsPrints n s a u ∧
        putsScan n s a = u.setUnfinished (some (.puts (a + BitVec.ofNat 16 n))) := by
  induction n generalizing s a with
  | zero => exact .inr ⟨s, .nothing, by rw [BitVec.add_zero]; rfl⟩
  | succ n ih =>
    rw [putsScan]
    split
    · next hw =>
      refine .inl ⟨0, Nat.succ_pos n, s, .nothing, ?_⟩
      rw [BitVec.add_zero]
      exact ⟨hw, rfl⟩
    · next hw =>
      rcases ih ((s.memRead a).2.conPut (lowByte (s.memRead a).1)) (a + 1) with ⟨m, hm, u, hp, he⟩ | ⟨u, hp, he⟩
      · rw [add_ofNat_succ] at he
        exact .inl ⟨m + 1, Nat.succ_lt_succ hm, u, .word hw hp, he⟩
      · rw [add_ofNat_succ] at he
        exact .inr ⟨u, .word hw hp, he⟩

theorem putspScan_spec (n : Nat) (s : State) (a : Word) :
    (∃ m, m < n ∧ PutspEnds m s a (putspScan n s a)) ∨
      ∃ u, PutspPrints n s a u ∧
        putspScan n s a = u.setUnfinished (some (.putsp (a + BitVec.ofNat 16 n))) := by
  induction n generalizing s a with
  | zero => exact .inr ⟨s, .nothing, by rw [BitVec.add_zero]; rfl⟩
  | succ n ih =>
    rw [putspScan]
    split
    · next hlo =>
      refine .inl ⟨0, Nat.succ_pos n, s, .nothing, ?_⟩
      rw [BitVec.add_zero]
      exact .inl ⟨hlo, rfl⟩
    · next hlo =>
      split
      · next hhi =>
        refine .inl ⟨0, Nat.succ_pos n, s, .nothing, ?_⟩
        rw [BitVec.add_zero]
        exact .inr ⟨hlo, hhi, rfl⟩
      · next hhi =>
        rcases ih (((s.memRead a).2.conPut (lowByte (s.memRead a).1)).conPut (highByte (s.memRead a).1)) (a + 1) with
          ⟨m, hm, u, hp, he⟩ | ⟨u, hp, he⟩
        · rw [add_ofNat_succ] at he
          exact .inl ⟨m + 1, Nat.succ_lt_succ hm, u, .word hlo hhi hp, he⟩
        · rw [add_ofNat_succ] at he
          exact .inr ⟨u, .word hlo hhi hp, he⟩

/-- All that one step of PUTS can do: end its loop, or stand past the next 0xFE00. -/
theorem State.putsFrom_step (s : State) (a : Word) : PutsStep s a (s.putsFrom a) := by
  have h := putsScan_spec (wordsToPoll a) s a
  rwa [add_wordsToPoll] at h

/-- All that one step of PUTSP can do: end its loop, or stand past the next 0xFE00. -/
theorem State.putspFrom_step (s : State) (a : Word) : PutspStep s a (s.putspFrom a) := by
  have h := putspScan_spec (wordsToPoll a) s a
  rwa [add_wordsToPoll] at h

/-! ## What a scan leaves unchanged (R171, R179) -/

/-- The relation of a state to one that a string scan can reach from it: registers, PC, flag and status as before,
memory but for the keyboard words, and the console gone forward. -/
structure Scanned (s t : State) : Prop where
  regs : t.regs = s.regs
  pc : t.pc = s.pc
  cond : t.cond = s.cond
  running : t.running = s.running
  fault : t.fault = s.fault
  mem : MemFrame s t [Config.kbsr, Config.kbdr]
  con : Advances s.con t.con
  wf : s.mem.wf → t.mem.wf

theorem Scanned.refl (s : State) : Scanned s s where
  regs := rfl
  pc := rfl
  cond := rfl
  running := rfl
  fault := rfl
  mem := fun _ _ => rfl
  con := Advances.refl _
  wf := id

theorem Scanned.trans {s t u : State} (h : Scanned s t) (k : Scanned t u) : Scanned s u where
  regs := k.regs.trans h.regs
  pc := k.pc.trans h.pc
  cond := k.cond.trans h.cond
  running := k.running.trans h.running
  fault := k.fault.trans h.fault
  mem := fun a ha => (k.mem a ha).trans (h.mem a ha)
  con := h.con.trans k.con
  wf := fun hw => k.wf (h.wf hw)

theorem Scanned.read (s : State) (a : Word) : Scanned s (s.memRead a).2 where
  regs := s.afterRead_regs a
  pc := s.afterRead_pc a
  cond := s.afterRead_cond a
  running := s.afterRead_running a
  fault := s.afterRead_fault a
  mem := s.afterRead_memFrame a
  con := (s.afterRead_advances a).1
  wf := fun h => State.afterRead_wf h a

theorem Scanned.put (s : State) (b : Byte) : Scanned s (s.conPut b) :=
  { Scanned.refl s with con := Console.put_advances _ _ }

theorem Scanned.setUnfinished {s t : State} (h : Scanned s t) (u : Option Unfinished) :
    Scanned s (t.setUnfinished u) :=
  { h with }

theorem putsPrints_scanned {n : Nat} {s t : State} {a : Word} (h : PutsPrints n s a t) : Scanned s t := by
  induction h with
  | nothing => exact Scanned.refl _
  | word _ _ ih => exact ((Scanned.read _ _).trans (Scanned.put _ _)).trans ih

theorem putspPrints_scanned {n : Nat} {s t : State} {a : Word} (h : PutspPrints n s a t) : Scanned s t := by
  induction h with
  | nothing => exact Scanned.refl _
  | word _ _ _ ih => exact (((Scanned.read _ _).trans (Scanned.put _ _)).trans (Scanned.put _ _)).trans ih

/-- What one step of PUTS leaves unchanged. -/
theorem putsStep_scanned {s t : State} {a : Word} (h : PutsStep s a t) : Scanned s t := by
  rcases h with ⟨n, -, u, hp, -, rfl⟩ | ⟨u, hp, rfl⟩
  · exact ((putsPrints_scanned hp).trans (Scanned.read _ _)).setUnfinished _
  · exact (putsPrints_scanned hp).setUnfinished _

/-- What one step of PUTSP leaves unchanged. -/
theorem putspStep_scanned {s t : State} {a : Word} (h : PutspStep s a t) : Scanned s t := by
  rcases h with ⟨n, -, u, hp, ⟨-, rfl⟩ | ⟨-, -, rfl⟩⟩ | ⟨u, hp, rfl⟩
  · exact ((putspPrints_scanned hp).trans (Scanned.read _ _)).setUnfinished _
  · exact (((putspPrints_scanned hp).trans (Scanned.read _ _)).trans (Scanned.put _ _)).setUnfinished _
  · exact (putspPrints_scanned hp).setUnfinished _

/-- A scan that has a zero word before 0xFE00 ahead of it changes no memory (R51, R174). -/
theorem putsScan_mem_of_zero {n k : Nat} {s : State} {a : Word} (hk : k < n)
    (hne : ∀ j, j ≤ k → a + BitVec.ofNat 16 j ≠ Config.kbsr) (hz : s.mem.read (a + BitVec.ofNat 16 k) = 0x0000#16) :
    (putsScan n s a).mem = s.mem := by
  induction n generalizing s a k with
  | zero => exact absurd hk (Nat.not_lt_zero k)
  | succ n ih =>
    have ha : a ≠ Config.kbsr := by simpa only [BitVec.add_zero] using hne 0 (Nat.zero_le k)
    rw [putsScan, State.memRead_of_ne ha]
    split
    · rfl
    · next hw =>
      cases k with
      | zero => exact absurd (by simpa only [BitVec.add_zero] using hz) hw
      | succ k =>
        refine ih (s := s.conPut _) (Nat.lt_of_succ_lt_succ hk) (fun j hj => ?_) (by rw [add_ofNat_succ]; exact hz)
        rw [add_ofNat_succ]
        exact hne (j + 1) (Nat.succ_le_succ hj)

/-- A scan that has a word with a zero byte before 0xFE00 ahead of it changes no memory (R51, R176). -/
theorem putspScan_mem_of_zero {n k : Nat} {s : State} {a : Word} (hk : k < n)
    (hne : ∀ j, j ≤ k → a + BitVec.ofNat 16 j ≠ Config.kbsr)
    (hz : ¬ (lowByte (s.mem.read (a + BitVec.ofNat 16 k)) ≠ 0x00#8 ∧
      highByte (s.mem.read (a + BitVec.ofNat 16 k)) ≠ 0x00#8)) :
    (putspScan n s a).mem = s.mem := by
  induction n generalizing s a k with
  | zero => exact absurd hk (Nat.not_lt_zero k)
  | succ n ih =>
    have ha : a ≠ Config.kbsr := by simpa only [BitVec.add_zero] using hne 0 (Nat.zero_le k)
    rw [putspScan, State.memRead_of_ne ha]
    split
    · rfl
    · next hlo =>
      split
      · rfl
      · next hhi =>
        cases k with
        | zero => exact absurd (And.intro hlo hhi) (by simpa only [BitVec.add_zero] using hz)
        | succ k =>
          refine ih (s := (s.conPut _).conPut _) (Nat.lt_of_succ_lt_succ hk) (fun j hj => ?_)
            (by rw [add_ofNat_succ]; exact hz)
          rw [add_ofNat_succ]
          exact hne (j + 1) (Nat.succ_le_succ hj)

/-- Addresses before the next 0xFE00. -/
theorem add_ne_kbsr {a : Word} {j : Nat} (h : j < (Config.kbsr - a).toNat) : a + BitVec.ofNat 16 j ≠ Config.kbsr := by
  intro he
  have hj : BitVec.ofNat 16 j = Config.kbsr - a := by rw [← he]; bv_omega
  have := congrArg BitVec.toNat hj
  rw [BitVec.toNat_ofNat] at this
  omega

/-- PUTS changes memory only where it polls (R53, R174). -/
theorem State.servePuts_mem {s : State} (h : ¬ PutsPolls s) : s.link.servePuts.mem = s.mem := by
  obtain ⟨k, hk⟩ := Classical.not_forall.mp h
  obtain ⟨hk, hz⟩ := Classical.not_imp.mp hk
  have h0 : s.link.getReg 0 = s.getReg 0 := by simp
  rw [State.servePuts, State.putsFrom, h0]
  exact putsScan_mem_of_zero (s := s.link) (Nat.lt_succ_of_lt hk)
    (fun j hj => add_ne_kbsr (Nat.lt_of_le_of_lt hj hk)) (Classical.not_not.mp hz)

/-- PUTSP changes memory only where it polls (R53, R176). -/
theorem State.servePutsp_mem {s : State} (h : ¬ PutspPolls s) : s.link.servePutsp.mem = s.mem := by
  obtain ⟨k, hk⟩ := Classical.not_forall.mp h
  obtain ⟨hk, hz⟩ := Classical.not_imp.mp hk
  have h0 : s.link.getReg 0 = s.getReg 0 := by simp
  rw [State.servePutsp, State.putspFrom, h0]
  exact putspScan_mem_of_zero (s := s.link) (Nat.lt_succ_of_lt hk)
    (fun j hj => add_ne_kbsr (Nat.lt_of_le_of_lt hj hk)) hz

/-- What PUTS and PUTSP leave, from the state before the TRAP's write of R7. -/
theorem Scanned.of_link {s t : State} (h : Scanned s.link t) :
    TrapEntered s t [] ∧ MemFrame s t [Config.kbsr, Config.kbdr] ∧ t.running = s.running ∧ t.fault = s.fault := by
  have hr := State.getReg_congr h.regs
  refine ⟨⟨(hr 7).trans (by simp), fun i hi => (hr i).trans ?_, h.pc, h.cond⟩, h.mem, h.running, h.fault⟩
  rw [List.mem_singleton] at hi
  rw [State.link_getReg, if_neg hi]

end Sys2Proof.Machine
end

