-- ==== Sys2Proof/Laws/Trap.lean ====
section
/-! SUPPORT. TRAP by its vector: served vectors run their service, and the others raise. -/

namespace Sys2Proof.Machine

open Sys2Proof.Safety

/-- The served vectors are the six of R97. -/
theorem servedVector_iff (v : BitVec 8) :
    ServedVector v ↔
      v = trapGetc ∨ v = trapOut ∨ v = trapPuts ∨ v = trapIn ∨ v = trapPutsp ∨ v = trapHalt := by
  revert v; decide +kernel

/-- TRAP x20 is GETC (R172). -/
theorem execTrap_getc (s : State) : execTrap trapGetc s = execGetc s := by
  rw [execTrap, execGetc, if_pos rfl]

/-- TRAP x21 is OUT (R173). -/
theorem execTrap_out (s : State) : execTrap trapOut s = execOut s := by
  rw [execTrap, execOut, if_neg (by decide), if_pos rfl]

/-- TRAP x22 is PUTS (R174). -/
theorem execTrap_puts (s : State) : execTrap trapPuts s = execPuts s := by
  rw [execTrap, execPuts, if_neg (by decide), if_neg (by decide), if_pos rfl]

/-- TRAP x23 is IN (R175). -/
theorem execTrap_in (s : State) : execTrap trapIn s = execIn s := by
  rw [execTrap, execIn, if_neg (by decide), if_neg (by decide), if_neg (by decide), if_pos rfl]

/-- TRAP x24 is PUTSP (R176). -/
theorem execTrap_putsp (s : State) : execTrap trapPutsp s = execPutsp s := by
  rw [execTrap, execPutsp, if_neg (by decide), if_neg (by decide), if_neg (by decide), if_neg (by decide), if_pos rfl]

/-- TRAP x25 is HALT (R177). -/
theorem execTrap_halt (s : State) : execTrap trapHalt s = execHalt s := by
  rw [execTrap, execHalt, if_neg (by decide), if_neg (by decide), if_neg (by decide), if_neg (by decide),
    if_neg (by decide), if_pos rfl]

/-- A TRAP with an unserved vector raises `BadTrapVector` (R178). -/
theorem execTrap_unserved {v : BitVec 8} (h : ¬ ServedVector v) (s : State) :
    execTrap v s = .next (s.link.raise (.badTrapVector v)) := by
  have hn : ∀ u, ServedVector u → v ≠ u := fun u hu e => h (e ▸ hu)
  rw [execTrap, if_neg (hn _ (by decide)), if_neg (hn _ (by decide)), if_neg (hn _ (by decide)),
    if_neg (hn _ (by decide)), if_neg (hn _ (by decide)), if_neg (hn _ (by decide))]

/-- Everything a TRAP can do: the arm of its vector's service, or the fault of an unserved one (R170). -/
theorem execTrap_cases (v : BitVec 8) (s : State) :
    (v = trapGetc ∧ execTrap v s = execGetc s) ∨ (v = trapOut ∧ execTrap v s = execOut s) ∨
    (v = trapPuts ∧ execTrap v s = execPuts s) ∨ (v = trapIn ∧ execTrap v s = execIn s) ∨
    (v = trapPutsp ∧ execTrap v s = execPutsp s) ∨ (v = trapHalt ∧ execTrap v s = execHalt s) ∨
    (¬ ServedVector v ∧ execTrap v s = .next (s.link.raise (.badTrapVector v))) := by
  by_cases h : ServedVector v
  · rcases (servedVector_iff v).mp h with h | h | h | h | h | h <;> rw [h]
    · exact .inl ⟨rfl, execTrap_getc s⟩
    · exact .inr (.inl ⟨rfl, execTrap_out s⟩)
    · exact .inr (.inr (.inl ⟨rfl, execTrap_puts s⟩))
    · exact .inr (.inr (.inr (.inl ⟨rfl, execTrap_in s⟩)))
    · exact .inr (.inr (.inr (.inr (.inl ⟨rfl, execTrap_putsp s⟩))))
    · exact .inr (.inr (.inr (.inr (.inr (.inl ⟨rfl, execTrap_halt s⟩)))))
  · exact .inr (.inr (.inr (.inr (.inr (.inr ⟨h, execTrap_unserved h s⟩)))))

/-- What the write of R7 leaves: every other register (R146). -/
theorem State.link_regsFrame (s : State) (ds : List RegIdx) : RegsFrame s s.link (7 :: ds) := by
  intro i hi
  rw [State.link_getReg, if_neg fun h => hi (by rw [h]; exact List.mem_cons_self)]

end Sys2Proof.Machine
end

