-- ==== Sys2Proof/Laws/Run.lean ====
section
/-! SUPPORT. What a step of a running core is, by whether an instruction is unfinished, and how runs are built from
steps. -/

namespace Sys2Proof.Machine

open Sys2Proof.Safety

/-- A running core in the middle of an instruction goes on with it (R216). -/
theorem step_of_unfinished {s : State} {u : Unfinished} (hr : s.running = true) (hf : s.fault = none)
    (hu : s.unfinished = some u) : step s = .next (s.goOn u) := by
  simp only [step, advance, State.phase, hr, hf, hu, Option.isSome_none, Bool.false_eq_true, if_false, if_true]

/-- A running core between instructions executes a cycle (R121). -/
theorem step_of_finished {s : State} (hr : s.running = true) (hf : s.fault = none) (hu : s.unfinished = none) :
    step s = cycle s := by
  simp only [step, advance, State.phase, hr, hf, hu, Option.isSome_none, Bool.false_eq_true, if_false, if_true]

/-- A run of `k + 1` steps is a step and then a run of `k` steps. -/
theorem run_succ {s t : State} (k : Nat) (h : step s = .next t) :
    Sys2Proof.core.run (k + 1) s = Sys2Proof.core.run k t := by
  have h' : Sys2Proof.core.step s = .next t := h
  simp only [Host.Core.run, h']

end Sys2Proof.Machine
end

