-- ==== Sys2Proof/Tests/Slice0.lean ====
section
/-! SUPPORT. The model's own tests: ill-formed terms, one word for each constructor, vectors of
spec/95_test_vectors.md (their ids stand in the comments) as single steps, and a witness for each hypothesis of the
statements. Expected results are the spec's. -/

namespace Sys2Proof.Tests

open Sys2Proof.Machine Sys2Proof.Safety

/-- The reset state with PC at `a`, the word `w` there, and the registers and memory words given. -/
def boot (a w : Word) (rs : List (RegIdx × Word)) (ms : List (Word × Word)) : State :=
  ms.foldl (fun s m => s.memWrite m.1 m.2)
    (rs.foldl (fun s r => s.setReg r.1 r.2) ((State.reset.setPc a).memWrite a w))

/-- The next state a step answers; the state itself where it answers none. -/
def after (s : State) : State :=
  match step s with
  | .next t => t
  | .fault _ => s
  | .refused _ => s

/-- The state beside a console that offers these moments first and has put out nothing. -/
def scripted (s : State) (l : List ConEvent) : State :=
  s.setCon { Console.untouched with input := l }

/-- The state beside a console that offers these moments and then ends. -/
def withInput (s : State) (l : List ConEvent) : State :=
  (scripted s l).consoleClose

/-! ## Well-formedness: the two ill-formed shapes are refused (R101) -/

theorem test_illFormed_jmp_r7 : WellFormed (.jmp 7) = false := by decide

theorem test_illFormed_trap_getc : WellFormed (.trap 0x20#8) = false := by decide

theorem test_illFormed_trap_halt : WellFormed (.trap 0x25#8) = false := by decide

theorem test_wellFormed_neighbours :
    WellFormed (.jmp 6) = true ∧ WellFormed (.trap 0x1F#8) = true ∧ WellFormed (.trap 0x26#8) = true := by decide

/-! ## Decoding: one word for each constructor, from R91, R93, R96 and R97 -/

theorem test_decode_br :
    opcodeOf ((0b0000_101_100000001#16).extractLsb' 12 4) = .br ∧
      decode 0b0000_101_100000001#16 = .br 0b101#3 0b100000001#9 := by decide

theorem test_decode_addReg :
    opcodeOf ((0b0001_010_000_0_00_001#16).extractLsb' 12 4) = .add ∧
      (0b0001_010_000_0_00_001#16).getLsbD 5 = false ∧
      decode 0b0001_010_000_0_00_001#16 = .addReg 2 0 1 := by decide

theorem test_decode_addImm :
    opcodeOf ((0b0001_001_110_1_11101#16).extractLsb' 12 4) = .add ∧
      (0b0001_001_110_1_11101#16).getLsbD 5 = true ∧
      decode 0b0001_001_110_1_11101#16 = .addImm 1 6 0b11101#5 := by decide

theorem test_decode_ld :
    opcodeOf ((0b0010_011_111111110#16).extractLsb' 12 4) = .ld ∧
      decode 0b0010_011_111111110#16 = .ld 3 0x1FE#9 := by decide

theorem test_decode_st :
    opcodeOf ((0b0011_100_000000111#16).extractLsb' 12 4) = .st ∧
      decode 0b0011_100_000000111#16 = .st 4 7#9 := by decide

theorem test_decode_jsrr :
    opcodeOf ((0b0100_0_00_101_000000#16).extractLsb' 12 4) = .jsr ∧
      (0b0100_0_00_101_000000#16).getLsbD 11 = false ∧
      decode 0b0100_0_00_101_000000#16 = .jsrr 5 := by decide

theorem test_decode_jsr :
    opcodeOf ((0b0100_1_10000000011#16).extractLsb' 12 4) = .jsr ∧
      (0b0100_1_10000000011#16).getLsbD 11 = true ∧
      decode 0b0100_1_10000000011#16 = .jsr 0b10000000011#11 := by decide

theorem test_decode_andReg :
    opcodeOf ((0b0101_011_001_0_00_010#16).extractLsb' 12 4) = .and ∧
      (0b0101_011_001_0_00_010#16).getLsbD 5 = false ∧
      decode 0b0101_011_001_0_00_010#16 = .andReg 3 1 2 := by decide

theorem test_decode_andImm :
    opcodeOf ((0b0101_001_100_1_10000#16).extractLsb' 12 4) = .and ∧
      (0b0101_001_100_1_10000#16).getLsbD 5 = true ∧
      decode 0b0101_001_100_1_10000#16 = .andImm 1 4 0b10000#5 := by decide

theorem test_decode_ldr :
    opcodeOf ((0b0110_011_001_100001#16).extractLsb' 12 4) = .ldr ∧
      decode 0b0110_011_001_100001#16 = .ldr 3 1 0b100001#6 := by decide

theorem test_decode_str :
    opcodeOf ((0b0111_100_001_000010#16).extractLsb' 12 4) = .str ∧
      decode 0b0111_100_001_000010#16 = .str 4 1 2#6 := by decide

theorem test_decode_rti :
    opcodeOf ((0b1000_000000000000#16).extractLsb' 12 4) = .rti ∧
      decode 0b1000_000000000000#16 = .rti := by decide

theorem test_decode_not :
    opcodeOf ((0b1001_001_010_1_11111#16).extractLsb' 12 4) = .not ∧
      decode 0b1001_001_010_1_11111#16 = .not 1 2 := by decide

theorem test_decode_ldi :
    opcodeOf ((0b1010_110_000000101#16).extractLsb' 12 4) = .ldi ∧
      decode 0b1010_110_000000101#16 = .ldi 6 5#9 := by decide

theorem test_decode_sti :
    opcodeOf ((0b1011_100_000000110#16).extractLsb' 12 4) = .sti ∧
      decode 0b1011_100_000000110#16 = .sti 4 6#9 := by decide

theorem test_decode_jmp :
    opcodeOf ((0b1100_000_010_000000#16).extractLsb' 12 4) = .jmp ∧
      decode 0b1100_000_010_000000#16 = .jmp 2 := by decide

theorem test_decode_res :
    opcodeOf ((0b1101_000100100011#16).extractLsb' 12 4) = .reserved ∧
      decode 0b1101_000100100011#16 = .res := by decide

theorem test_decode_lea :
    opcodeOf ((0b1110_001_000001001#16).extractLsb' 12 4) = .lea ∧
      decode 0b1110_001_000001001#16 = .lea 1 9#9 := by decide

theorem test_decode_trap :
    opcodeOf ((0b1111_0000_11111111#16).extractLsb' 12 4) = .trap ∧
      decode 0b1111_0000_11111111#16 = .trap 0xFF#8 := by decide

theorem test_decode_ret :
    opcodeOf ((0b1100_000_111_000000#16).extractLsb' 12 4) = .jmp ∧
      (0b1100_000_111_000000#16).extractLsb' 6 3 = 7#3 ∧
      decode 0b1100_000_111_000000#16 = .ret := by decide

theorem test_decode_getc :
    opcodeOf ((0b1111_0000_00100000#16).extractLsb' 12 4) = .trap ∧
      (0b1111_0000_00100000#16).extractLsb' 0 8 = trapGetc ∧
      decode 0b1111_0000_00100000#16 = .getc := by decide

theorem test_decode_out :
    opcodeOf ((0b1111_0000_00100001#16).extractLsb' 12 4) = .trap ∧
      (0b1111_0000_00100001#16).extractLsb' 0 8 = trapOut ∧
      decode 0b1111_0000_00100001#16 = .out := by decide

theorem test_decode_puts :
    opcodeOf ((0b1111_0000_00100010#16).extractLsb' 12 4) = .trap ∧
      (0b1111_0000_00100010#16).extractLsb' 0 8 = trapPuts ∧
      decode 0b1111_0000_00100010#16 = .puts := by decide

theorem test_decode_inp :
    opcodeOf ((0b1111_0000_00100011#16).extractLsb' 12 4) = .trap ∧
      (0b1111_0000_00100011#16).extractLsb' 0 8 = trapIn ∧
      decode 0b1111_0000_00100011#16 = .inp := by decide

theorem test_decode_putsp :
    opcodeOf ((0b1111_0000_00100100#16).extractLsb' 12 4) = .trap ∧
      (0b1111_0000_00100100#16).extractLsb' 0 8 = trapPutsp ∧
      decode 0b1111_0000_00100100#16 = .putsp := by decide

theorem test_decode_halt :
    opcodeOf ((0b1111_0000_00100101#16).extractLsb' 12 4) = .trap ∧
      (0b1111_0000_00100101#16).extractLsb' 0 8 = trapHalt ∧
      decode 0b1111_0000_00100101#16 = .halt := by decide

/-- An encoder word and a table row's word (R90: the table numbers the bits of the one word). -/
theorem test_encode_and_tableWord :
    encode (.sti 4 6#9) = 0xB806#16 ∧ encode (.not 0 0) = 0x903F#16 ∧
      decodeTableWord 16 0xC1C0 = some .ret ∧ decodeTableWord 17 0 = none := by decide

/-! ## One step: BR (V3, B5) -/

/-- S4: COND N, mask 100 is taken and mask 011 is not. -/
theorem test_br_negative :
    (after { boot 0x3000#16 0x0805#16 [] [] with cond := .negative }).pc = 0x3006#16 ∧
      (after { boot 0x3000#16 0x0605#16 [] [] with cond := .negative }).pc = 0x3001#16 := by decide

/-- B5: the incremented PC wraps before the offset is added. -/
theorem test_br_wraps : (after (boot 0xFFFF#16 0x0E01#16 [] [])).pc = 0x0001#16 := by decide

/-! ## One step: operate (V2) -/

/-- A1. -/
theorem test_addReg_overflow :
    let t := after (boot 0x3000#16 0x1401#16 [(0, 0x7FFF#16), (1, 0x0001#16)] [])
    t.getReg 2 = 0x8000#16 ∧ t.cond = .negative ∧ t.pc = 0x3001#16 := by decide

/-- A4: DR and both sources are one register. -/
theorem test_addReg_sameRegister :
    let t := after (boot 0x3000#16 0x1241#16 [(1, 0x4000#16)] [])
    t.getReg 1 = 0x8000#16 ∧ t.cond = .negative := by decide

/-- A5. -/
theorem test_addImm_negative :
    let t := after (boot 0x3000#16 0x1030#16 [] [])
    t.getReg 0 = 0xFFF0#16 ∧ t.cond = .negative := by decide

/-- A6. -/
theorem test_addImm_zero :
    let t := after (boot 0x3000#16 0x102F#16 [(0, 0xFFF1#16)] [])
    t.getReg 0 = 0x0000#16 ∧ t.cond = .zero := by decide

/-- A10. -/
theorem test_andReg :
    let t := after (boot 0x3000#16 0x5642#16 [(1, 0xFF0F#16), (2, 0x0FF0#16)] [])
    t.getReg 3 = 0x0F00#16 ∧ t.cond = .positive := by decide

/-- A13: the immediate is sign-extended. -/
theorem test_andImm_mask :
    let t := after (boot 0x3000#16 0x5270#16 [(1, 0x12FF#16)] [])
    t.getReg 1 = 0x12F0#16 ∧ t.cond = .positive := by decide

/-- A18: the unexamined bits are 0 here. -/
theorem test_not_unexamined :
    let t := after (boot 0x3000#16 0x9280#16 [(2, 0x8000#16)] [])
    t.getReg 1 = 0x7FFF#16 ∧ t.cond = .positive := by decide

/-! ## One step: control transfer (V4) -/

/-- J2. -/
theorem test_jmp : (after (boot 0x3000#16 0xCE85#16 [(2, 0x4000#16)] [])).pc = 0x4000#16 := by decide

/-- J3. -/
theorem test_ret : (after (boot 0x3000#16 0xC1C0#16 [(7, 0x3002#16)] [])).pc = 0x3002#16 := by decide

/-- J6. -/
theorem test_jsr_backward :
    let t := after (boot 0x3000#16 0x4C00#16 [] [])
    t.getReg 7 = 0x3001#16 ∧ t.pc = 0x2C01#16 := by decide

/-- J9. -/
theorem test_jsrr :
    let t := after (boot 0x3003#16 0x4080#16 [(2, 0x3005#16)] [])
    t.getReg 7 = 0x3004#16 ∧ t.pc = 0x3005#16 := by decide

/-- J10: JSRR R7 falls through (D15). -/
theorem test_jsrr_r7 :
    let t := after (boot 0x3000#16 0x41C0#16 [(7, 0x5000#16)] [])
    t.getReg 7 = 0x3001#16 ∧ t.pc = 0x3001#16 := by decide

/-! ## One step: loads, LEA and stores (V5, V6) -/

/-- L3. -/
theorem test_ld_wraps :
    let t := after (boot 0xFFFF#16 0x21FF#16 [] [])
    t.getReg 0 = 0x21FF#16 ∧ t.cond = .positive ∧ t.pc = 0x0000#16 := by decide

/-- L6: the second read of LDI polls the keyboard. -/
theorem test_ldi_polls :
    let t := after (scripted (boot 0x3000#16 0xA200#16 [] [(0x3001#16, 0xFE00#16)]) [.byte 0x5A#8])
    t.getReg 1 = 0x8000#16 ∧ t.cond = .negative ∧ t.mem.read 0xFE00#16 = 0x8000#16 ∧
      t.mem.read 0xFE02#16 = 0x005A#16 ∧ t.con.input = [] := by decide

/-- L5. -/
theorem test_ldi_selfPointer :
    let t := after (boot 0x3000#16 0xA200#16 [] [(0x3001#16, 0x3001#16)])
    t.getReg 1 = 0x3001#16 ∧ t.cond = .positive := by decide

/-- L8. -/
theorem test_ldr_wraps :
    let t := after (boot 0x3000#16 0x6241#16 [(1, 0xFFFF#16)] [(0x0000#16, 0x1111#16)])
    t.getReg 1 = 0x1111#16 ∧ t.cond = .positive := by decide

/-- L10. -/
theorem test_ldr_negativeOffset :
    (after (boot 0x3000#16 0x6260#16 [(1, 0x4020#16)] [(0x4000#16, 0x7777#16)])).getReg 1 = 0x7777#16 := by decide

/-- L13. -/
theorem test_lea_zero :
    let t := after (boot 0xFFFF#16 0xE000#16 [] [])
    t.getReg 0 = 0x0000#16 ∧ t.cond = .zero ∧ t.pc = 0x0000#16 := by decide

/-- L15. -/
theorem test_lea_negative :
    let t := after (boot 0x7F00#16 0xE0FF#16 [] [])
    t.getReg 0 = 0x8000#16 ∧ t.cond = .negative := by decide

/-- M3: a store to the status word is plain, and polls nothing. -/
theorem test_st_statusWord :
    let t := after (scripted (boot 0xFDFF#16 0x3200#16 [(1, 0x00FF#16)] []) [.byte 0x41#8])
    t.mem.read 0xFE00#16 = 0x00FF#16 ∧ t.pc = 0xFE00#16 ∧ t.con.input = [.byte 0x41#8] := by decide

/-- M4. -/
theorem test_sti_overwritesPointer :
    (after (boot 0x3000#16 0xB200#16 [(1, 0x1357#16)] [(0x3001#16, 0x3001#16)])).mem.read 0x3001#16 = 0x1357#16 := by
  decide

/-- M7. -/
theorem test_str :
    let t := after (boot 0x3000#16 0x7842#16 [(1, 0x300A#16), (4, 0x0234#16)] [])
    t.mem.read 0x300C#16 = 0x0234#16 ∧ t.cond = .zero := by decide

/-! ## One step: TRAP, RTI and the reserved opcode (V7, V8) -/

/-- F2. -/
theorem test_rti :
    let t := after (boot 0x3000#16 0x8FFF#16 [] [])
    t.fault = some .rtiNotImplemented ∧ t.faultCode = 1 ∧ t.pc = 0x3001#16 ∧ t.running = true := by decide

/-- F4. -/
theorem test_res :
    let t := after (boot 0x3000#16 0xD123#16 [] [])
    t.fault = some .reservedOpcode ∧ t.faultCode = 2 ∧ t.pc = 0x3001#16 := by decide

/-- F6 and F7: the neighbours of the served vectors. -/
theorem test_trap_badVector :
    let t := after (boot 0x3000#16 0xF01F#16 [] [])
    let u := after (boot 0x3000#16 0xF026#16 [] [])
    t.fault = some (.badTrapVector 0x1F#8) ∧ t.faultCode = 3 ∧ t.pc = 0x3001#16 ∧ t.getReg 7 = 0x3001#16 ∧
      u.fault = some (.badTrapVector 0x26#8) := by decide

/-- T1. -/
theorem test_getc :
    let s := scripted (boot 0x3000#16 0xF020#16 [(0, 0xFFFF#16)] []) [.byte 0x00#8]
    let t := after { s with cond := .positive }
    t.getReg 0 = 0x0000#16 ∧ t.getReg 7 = 0x3001#16 ∧ t.cond = .positive ∧ t.con.output = [] := by decide

/-- R67: at a quiet moment GETC waits, R7 written and R0 not; the byte that comes then completes it. -/
theorem test_getc_waits :
    let t := after (scripted (boot 0x3000#16 0xF020#16 [(0, 0xFFFF#16)] []) [.quiet, .byte 0x61#8])
    t.getReg 0 = 0xFFFF#16 ∧ t.getReg 7 = 0x3001#16 ∧ t.unfinished = some (.reading .getc) ∧
      (after t).getReg 0 = 0x0061#16 ∧ (after t).unfinished = none := by decide

/-- F9. -/
theorem test_getc_endOfInput :
    let t := after (withInput (boot 0x3000#16 0xF020#16 [(0, 0x1234#16)] []) [])
    t.fault = some .consoleEndOfInput ∧ t.faultCode = 4 ∧ t.pc = 0x3001#16 ∧ t.getReg 7 = 0x3001#16 ∧
      t.getReg 0 = 0x1234#16 := by decide

/-- T4. -/
theorem test_out :
    let t := after (boot 0x3000#16 0xFA21#16 [(0, 0x1241#16)] [])
    t.con.output = [0x41#8] ∧ t.getReg 7 = 0x3001#16 ∧ t.getReg 0 = 0x1241#16 := by decide

/-- T5: a zero low byte is no terminator (D12). -/
theorem test_puts :
    let t := after (boot 0x3000#16 0xF022#16 [(0, 0x4000#16)]
      [(0x4000#16, 0x0141#16), (0x4001#16, 0x0100#16), (0x4002#16, 0x0042#16)])
    t.con.output = [0x41#8, 0x00#8, 0x42#8] ∧ t.getReg 7 = 0x3001#16 ∧ t.getReg 0 = 0x4000#16 := by decide

/-- T7: the scan wraps. -/
theorem test_puts_wraps :
    (after (boot 0x3000#16 0xF022#16 [(0, 0xFFFF#16)] [(0xFFFF#16, 0x0058#16), (0x0000#16, 0x0059#16)])).con.output =
      [0x58#8, 0x59#8] := by decide

/-- R174 over the keyboard words (D13): the poll at 0xFE00 finds a byte and prints its own low bits; the next step
goes on at 0xFE01 and prints the byte itself at 0xFE02, up to the zero word. -/
theorem test_puts_overKeyboard :
    let t := after (scripted (boot 0x3000#16 0xF022#16 [(0, 0xFE00#16)] [(0xFE01#16, 0x0042#16)]) [.byte 0x41#8])
    t.con.output = [0x00#8] ∧ t.unfinished = some (.puts 0xFE01#16) ∧
      (after t).con.output = [0x00#8, 0x42#8, 0x41#8] ∧ (after t).unfinished = none := by decide

/-- T11: the prompt, then the echo. -/
theorem test_in :
    let t := after (scripted { boot 0x3000#16 0xF023#16 [] [] with cond := .negative } [.byte 0x79#8])
    (t.getReg 0 = 0x0079#16 ∧ t.getReg 7 = 0x3001#16 ∧ t.cond = .negative) ∧
      t.con.output = Config.inPrompt ++ [0x79#8] := ⟨by decide, rfl⟩

/-- T8: the zero high byte of 4001 ends the scan. -/
theorem test_putsp :
    let t := after (boot 0x3000#16 0xF024#16 [(0, 0x4000#16)]
      [(0x4000#16, 0x6548#16), (0x4001#16, 0x006C#16), (0x4002#16, 0x4141#16)])
    t.con.output = [0x48#8, 0x65#8, 0x6C#8] ∧ t.getReg 0 = 0x4000#16 := by decide

/-- T9: a zero low byte stops at once. -/
theorem test_putsp_zeroLowByte :
    (after (boot 0x3000#16 0xF024#16 [(0, 0x4000#16)] [(0x4000#16, 0x4100#16)])).con.output = [] := by decide

/-- R176 over the keyboard words: a poll with bits 15:8 and a kept low byte goes on at 0xFE01, where a zero low byte
ends it. -/
theorem test_putsp_overKeyboard :
    let t := after (scripted (boot 0x3000#16 0xF024#16 [(0, 0xFE00#16)] [(0xFE00#16, 0x0042#16)]) [.byte 0x41#8])
    t.con.output = [0x42#8, 0x80#8] ∧ t.unfinished = some (.putsp 0xFE01#16) ∧
      (after t).con.output = [0x42#8, 0x80#8] ∧ (after t).unfinished = none := by decide

/-- F11. -/
theorem test_halt :
    let t := after (boot 0x3005#16 0xFA25#16 [] [])
    t.getReg 7 = 0x3006#16 ∧ t.pc = 0x3006#16 ∧ t.running = false ∧ t.fault = none := by decide

/-! ## The keyboard (V9), the host (S3, S11, S9) and the probe -/

/-- K4: the low bits of the status word are kept (D6). -/
theorem test_keyboard_keepsLowBits :
    let s := scripted (State.reset.memWrite 0xFE00#16 0x00FF#16) [.byte 0x41#8]
    (s.memRead 0xFE00#16).1 = 0x80FF#16 ∧ (s.memRead 0xFE00#16).2.mem.read 0xFE02#16 = 0x0041#16 := by decide

/-- K3: a second poll takes the next byte. -/
theorem test_keyboard_twoBytes :
    let s := scripted State.reset [.byte 0x41#8, .byte 0x42#8]
    (s.memRead 0xFE00#16).1 = 0x8000#16 ∧ ((statusReads 1 s).memRead 0xFE00#16).1 = 0x8000#16 ∧
      (statusReads 2 s).mem.read 0xFE02#16 = 0x0042#16 := by decide

/-- S11. -/
theorem test_load :
    let t := State.reset.storeImage [0x40#8, 0x00#8, 0xAB#8, 0xCD#8, 0x00#8, 0x01#8]
    State.reset.load [0x40#8, 0x00#8, 0xAB#8, 0xCD#8, 0x00#8, 0x01#8] = some (.ok, t) ∧
      t.mem.read 0x4000#16 = 0xABCD#16 ∧ t.mem.read 0x4001#16 = 0x0001#16 ∧ t.pc = 0x3000#16 := by decide

/-- An instruction placed for the host's probe is the one the next step runs, at reset. -/
theorem test_withFetchWord :
    (after (State.reset.withFetchWord 16 0x1021)).getReg 0 = 0x0001#16 := by decide

/-! ## Witnesses: states and operands that meet the hypotheses of the statements

A statement with a hypothesis that is only the encoding's opcode has its witness in the decoding tests above. -/

theorem test_witness_SignAndZeroExtension :
    (0x10#5).getLsbD (5 - 1) = true ∧ (0x0F#5).getLsbD (5 - 1) = false ∧ (1#1).getLsbD (1 - 1) = true ∧
      (0#1).getLsbD (1 - 1) = false ∧ (0x8000#16).getLsbD (16 - 1) = true ∧ (0x7FFF#16).getLsbD (16 - 1) = false ∧
      1 ≤ 1 ∧ 16 ≤ 16 := by decide

theorem test_witness_MemoryReadPollsKeyboard_plain :
    (0xFDFF#16 : Word) ≠ 0xFE00#16 ∧ (0xFE01#16 : Word) ≠ 0xFE00#16 ∧ (0xFE02#16 : Word) ≠ 0xFE00#16 := by decide

theorem test_witness_MemoryReadPollsKeyboard_moments :
    (scripted State.reset [.byte 0x41#8, .quiet]).con.look.1 = some (.byte 0x41#8) ∧
      (scripted State.reset [.quiet]).con.look.1 = some .quiet ∧ (withInput State.reset []).con.look.1 = none := by
  decide

theorem test_witness_MemoryReadPollsKeyboard_look :
    (scripted State.reset [.quiet]).con.input = .quiet :: [] ∧ (withInput State.reset []).con.input = [] ∧
      (withInput State.reset []).con.ended = true ∧ State.reset.con.input = [] ∧ State.reset.con.ended = false := by
  decide

theorem test_witness_KeyboardByteReportedOnce :
    (scripted State.reset [.quiet, .quiet, .byte 0x41#8, .quiet, .byte 0x42#8]).con.input =
        List.replicate 2 .quiet ++ .byte 0x41#8 :: (List.replicate 1 .quiet ++ [.byte 0x42#8]) ∧
      1 < 2 ∧ 2 < 3 ∧ 3 ≤ 2 + 1 := by decide

theorem test_witness_StoreSeenByNextFetch : (0x3002#16 : Word) ≠ 0xFE00#16 := by decide

/-- Two writes in either order leave one list. -/
theorem test_witness_EqualReadsEqualMemory :
    let m := (Memory.write [] 0x4000#16 1#16).write 0x4001#16 2#16
    let m' := (Memory.write [] 0x4001#16 2#16).write 0x4000#16 1#16
    m.wf ∧ m'.wf ∧ ∀ a, m.read a = m'.read a := by
  intro m m'
  have h : m = m' := by decide
  exact ⟨by decide, by decide, fun a => by rw [h]⟩

theorem test_witness_LoadPcRelative :
    let s := boot 0x3000#16 0 [] [(0x3001#16, 0x0007#16)]
    s.pc + sext 1#9 ≠ 0xFE00#16 ∧ s.mem.read (s.pc + sext 1#9) ≠ 0xFE00#16 := by decide

/-- The same operands meet the hypothesis of the store through a pointer. -/
theorem test_witness_LoadIndirect :
    let s := boot 0x3000#16 0 [] [(0x3001#16, 0x4000#16)]
    s.pc + sext 1#9 ≠ 0xFE00#16 ∧ s.mem.read (s.pc + sext 1#9) ≠ 0xFE00#16 := by decide

theorem test_witness_LoadBaseOffset :
    let s := boot 0x3000#16 0 [(1, 0xFE01#16)] []
    s.getReg 1 + sext 0#6 ≠ 0xFE00#16 ∧ s.getReg 1 + sext 0x3F#6 = 0xFE00#16 := by decide

theorem test_witness_TrapDispatch :
    ¬ ServedVector 0x00#8 ∧ ¬ ServedVector 0x1F#8 ∧ ServedVector 0x20#8 ∧ ServedVector 0x25#8 ∧
      ¬ ServedVector 0x26#8 ∧ ¬ ServedVector 0xFF#8 := by decide

/-- A byte, a quiet moment and the end of the input: the three cases of GETC and IN. -/
theorem test_witness_GetcAndIn :
    (scripted State.reset [.byte 0x61#8]).con.look.1 = some (.byte 0x61#8) ∧
      (scripted State.reset [.quiet, .byte 0x61#8]).con.look.1 = some .quiet ∧
      (withInput State.reset []).con.look.1 = none := by decide

theorem test_witness_PutsPrintsZeroTerminatedString :
    let s := boot 0x3000#16 0 [(0, 0xFFFF#16)] [(0xFFFF#16, 0x0058#16), (0x0000#16, 0x0059#16)]
    let ws := [0x0058#16, 0x0059#16]
    (∀ k, k ≤ ws.length → s.getReg 0 + BitVec.ofNat 16 k ≠ 0xFE00#16) ∧
      (∀ k (h : k < ws.length), s.mem.read (s.getReg 0 + BitVec.ofNat 16 k) = ws[k] ∧ ws[k] ≠ 0x0000#16) ∧
      s.mem.read (s.getReg 0 + BitVec.ofNat 16 ws.length) = 0x0000#16 := by decide

/-- A packed string that ends in a zero high byte, and the empty one. -/
theorem test_witness_PutspFollowsItsLoop :
    let s := boot 0x3000#16 0 [(0, 0xFFFF#16)] [(0xFFFF#16, 0x6548#16), (0x0000#16, 0x006C#16)]
    let ws := [0x6548#16]
    (∀ k, k ≤ ws.length → s.getReg 0 + BitVec.ofNat 16 k ≠ 0xFE00#16) ∧
      (∀ k (h : k < ws.length), s.mem.read (s.getReg 0 + BitVec.ofNat 16 k) = ws[k] ∧ lowByte ws[k] ≠ 0x00#8 ∧
        highByte ws[k] ≠ 0x00#8) ∧
      s.mem.read (s.getReg 0 + BitVec.ofNat 16 ws.length) = 0x006C#16 ∧ highByte 0x006C#16 = 0x00#8 ∧
      State.reset.mem.read (State.reset.getReg 0 + BitVec.ofNat 16 0) = 0x0000#16 ∧
      lowByte 0x0000#16 = 0x00#8 := by decide

theorem test_witness_ServicesLeaveTheRestAlone :
    Instr.getc ∈ [Instr.getc, .out, .puts, .inp, .putsp, .halt] ∧
      Instr.halt ∈ [Instr.getc, .out, .puts, .inp, .putsp, .halt] := by decide

/-- For the rules over all instructions: next states of an instruction with a flag destination and of one without, of
HALT, of one that faults, and of one that stores. -/
theorem test_witness_rulesOverAllInstructions :
    exec (.addImm 0 0 1#5) State.reset = .next (State.reset.writeResult 0 (0#16 + sext 1#5)) ∧
      exec .halt State.reset = .next State.reset.link.serveHalt ∧
      exec .rti State.reset = .next (State.reset.raise .rtiNotImplemented) ∧
      exec (.trap 0xFF#8) State.reset = .next (State.reset.link.raise (.badTrapVector 0xFF#8)) ∧
      exec (.st 0 0#9) State.reset = .next (State.reset.memWrite (State.reset.pcRel9 0#9) (State.reset.getReg 0)) :=
  ⟨rfl, rfl, rfl, execTrap_unserved (by decide) _, rfl⟩

/-- A load that polls spares the words beside the keyboard's; one that does not, a store and PUTS at a zero word spare
the keyboard words too. -/
theorem test_witness_OnlyStoresWriteMemory :
    let s := boot 0xFDFF#16 0 [] []
    (Polls s (.ld 0 1#9) ∧ ¬ MayChange s (.ld 0 1#9) 0xFE01#16) ∧ ¬ MayChange s (.ld 0 0#9) 0xFE00#16 ∧
      ¬ MayChange s (.st 0 0#9) 0xFE00#16 ∧ ¬ MayChange s .puts 0xFE00#16 := by
  intro s
  refine ⟨⟨show s.pc + sext 1#9 = Config.kbsr by decide, ?_⟩, ?_, ?_, ?_⟩
  · exact fun h => h.elim (fun h => nomatch h) fun h => absurd h.2 (by decide)
  · exact fun h => h.elim (fun h => nomatch h) fun h => absurd (show s.pc + sext 0#9 = Config.kbsr from h.1) (by decide)
  · exact fun h => h.elim (fun h => absurd h (by decide)) fun h => h.1
  · exact fun h => h.elim (fun h => nomatch h) fun h => h.1 0 (by decide) (by decide)

/-- PUTS and PUTSP at 0xFE00 poll; at a zero word before it they do not. -/
theorem test_witness_ServicesLeaveTheRestAlone_polls :
    let s := boot 0x3000#16 0 [(0, 0xFE00#16)] []
    (PutsPolls s ∧ PutspPolls s) ∧ ¬ Polls State.reset .puts ∧ ¬ Polls State.reset .putsp ∧
      ¬ Polls State.reset .getc := by
  intro s
  have h0 : (Config.kbsr - s.getReg 0).toNat = 0 := by decide
  exact ⟨⟨fun k h => absurd (h0 ▸ h) (Nat.not_lt_zero k), fun k h => absurd (h0 ▸ h) (Nat.not_lt_zero k)⟩,
    fun h => h 0 (by decide) (by decide), fun h => (h 0 (by decide)).1 (by decide), fun h => h⟩

theorem test_witness_OnlySevenInstructionsWriteFlag : ∀ nzp off, Instr.halt ≠ .br nzp off :=
  fun _ _ h => nomatch h

theorem test_witness_StepRunsDecodedInstruction :
    let s := boot 0x3000#16 0x1021#16 [] []
    s.running = true ∧ s.fault = none ∧ s.unfinished = none ∧ decode (s.memRead s.pc).1 = .addImm 0 0 1#5 := by decide

/-- A GETC that waits, beside each console the clauses ask for. -/
def waiting (c : Console) : State :=
  (after (scripted (boot 0x3000#16 0xF020#16 [] []) [.quiet])).setCon c

theorem test_witness_BlockedReadWaitsForConsole :
    let s := waiting { Console.untouched with input := [.quiet, .byte 0x61#8] }
    s.running = true ∧ s.fault = none ∧ s.unfinished = some (.reading .getc) ∧ s.con.look.1 = some .quiet ∧
      s.con.input = List.replicate 1 .quiet ++ .byte 0x61#8 :: [] ∧
      (waiting { Console.untouched with input := [.byte 0x61#8] }).con.look.1 = some (.byte 0x61#8) ∧
      (waiting { Console.untouched with ended := true }).con.look.1 = none ∧
      (waiting { Console.untouched with ended := true }).unfinished = some (.reading .getc) := by decide

/-- PUTS and PUTSP past a poll: an unfinished string service. -/
theorem test_witness_UnfinishedScanGoesOn :
    let s := after (scripted (boot 0x3000#16 0xF022#16 [(0, 0xFE00#16)] []) [.byte 0x41#8])
    let t := after (scripted (boot 0x3000#16 0xF024#16 [(0, 0xFE00#16)] [(0xFE00#16, 0x0042#16)]) [.byte 0x41#8])
    (s.running = true ∧ s.fault = none ∧ s.unfinished = some (.puts 0xFE01#16)) ∧
      (t.running = true ∧ t.fault = none ∧ t.unfinished = some (.putsp 0xFE01#16)) := by decide

/-- Memory with `n` words 1 from address `k` on. -/
def ones : Nat → Nat → Memory
  | 0, _ => []
  | n + 1, k => (k, 1#16) :: ones n (k + 1)

theorem ones_read (n k : Nat) (a : Word) (h : k ≤ a.toNat) (h' : a.toNat < k + n) : (ones n k).read a = 1#16 := by
  induction n generalizing k with
  | zero => omega
  | succ n ih =>
    rw [ones, Memory.read]
    split
    · rfl
    · exact ih (k + 1) (by omega) (by omega)

/-- A PUTS over memory without a zero word, for two polls that find a byte. -/
theorem test_witness_UnfinishedScanGoesOn_endless :
    let s : State := { scripted State.reset [.byte 0x41#8, .byte 0x41#8] with
      mem := ones 65536 0, unfinished := some (.puts 0x4000#16) }
    s.running = true ∧ s.fault = none ∧ s.unfinished = some (.puts 0x4000#16) ∧
      (∀ x, x ≠ 0xFE00#16 → s.mem.read x ≠ 0x0000#16) ∧ 0x41#8 ≠ 0x00#8 ∧
      s.con.input = List.replicate (1 + 1) (.byte 0x41#8) ++ [] := by
  refine ⟨rfl, rfl, rfl, fun x _ => ?_, by decide, rfl⟩
  rw [ones_read 65536 0 x (Nat.zero_le _) (by omega)]
  decide

/-- HALTED after HALT, FAULTED after the reserved opcode. -/
theorem test_witness_StoppedCoreStaysStopped :
    (after (boot 0x3000#16 0xF025#16 [] [])).running = false ∧
      (after (boot 0x3000#16 0xD000#16 [] [])).fault.isSome = true := by decide

theorem test_witness_HaltWordEndsRun :
    let s := boot 0x3000#16 0xFA25#16 [] []
    s.running = true ∧ s.fault = none ∧ s.unfinished = none ∧ s.pc ≠ 0xFE00#16 ∧
      opcodeOf ((s.mem.read s.pc).extractLsb' 12 4) = .trap ∧ (s.mem.read s.pc).extractLsb' 0 8 = 0x25#8 := by decide

theorem test_witness_Consistent_waiting : Consistent (waiting Console.untouched) := by
  have hf : (waiting Console.untouched).fault = none := by decide
  exact ⟨by decide, by decide, fun c h => nomatch hf.symm.trans h⟩

theorem test_witness_Consistent_faulted : Consistent (after (boot 0x3000#16 0xF0FF#16 [] [])) := by
  refine ⟨by decide, by decide, fun c h => ?_⟩
  have hf : (after (boot 0x3000#16 0xF0FF#16 [] [])).fault = some (.badTrapVector 0xFF#8) := by decide
  have hc : c = .badTrapVector 0xFF#8 := Option.some.inj (h.symm.trans hf)
  subst hc
  exact ⟨by decide, show ¬ ServedVector 0xFF#8 by decide⟩

/-- One step from there, for the statements about a step and about a run. -/
theorem test_witness_stepAndRun :
    step State.reset.serveHalt = .next State.reset.serveHalt ∧
      Sys2Proof.Machine.step State.reset = .next (State.reset.fetch.2) := ⟨rfl, rfl⟩

/-- A state in which the host has no move, one in which it has each, and a canonical snapshot. -/
theorem test_witness_HostOperationsKeepInvariant :
    (waiting Console.untouched).unfinished.isSome = true ∧
      State.reset.load [0x40#8, 0x00#8] = some (.ok, State.reset) ∧
      State.reset.readMemory 0x4000#16 = some (0x0000#16, State.reset) ∧
      State.reset.serveHalt.resume = some State.reset ∧ State.reset.unfinished = none ∧
      ({ mem := [(0x4000, 1#16)], regs := State.reset.regs, pc := 0, cond := .zero } : Snapshot).mem.wf := by decide

theorem test_witness_DecodeEncodeRoundTrip :
    WellFormed (.trap 0xFF#8) = true ∧ WellFormed (.jmp 2) = true ∧ WellFormed (.ldr 3 1 0x21#6) = true := by decide

/-- A8 beside A1: bits 4:3 of a register-form ADD. -/
theorem test_witness_UnexaminedBitsIgnored :
    0x1401#16 &&& examinedBits (rowOf (decode 0x1401#16)) = 0x1419#16 &&& examinedBits (rowOf (decode 0x1401#16)) := by
  decide

theorem test_witness_DecoderRowsPartitionWords : ⟨.jsrr, 0x4000#16, 0xF800#16⟩ ∈ decoderRows := by decide

theorem test_witness_IllegalWordsAlwaysFail : State.reset.fault = none := by decide

/-- An even and an odd image, a word inside and a word outside it. -/
theorem test_witness_LoadStoresImage :
    imageWords [0xFF#8, 0xFF#8, 0xAB#8, 0xCD#8, 0x00#8, 0x01#8] = 0xFFFF#16 :: [0xABCD#16, 0x0001#16] ∧
      imageWords [0x30#8, 0x00#8, 0x12#8, 0x34#8, 0x56#8] = 0x3000#16 :: [0x1234#16] ∧
      [0xABCD#16, 0x0001#16].length ≤ 65536 ∧ (0xFFFF#16 : Word) + BitVec.ofNat 16 1 = 0x0000#16 ∧
      (∀ k, k < 2 → (0x0001#16 : Word) ≠ 0xFFFF#16 + BitVec.ofNat 16 k) ∧ State.reset.unfinished = none ∧
      [0x30#8].length < 2 := by decide

/-- The states between instructions, at reset and after HALT. -/
theorem test_witness_RestoreOfSnapshot :
    State.reset.unfinished = none ∧ State.reset.serveHalt.unfinished = none := by decide

end Sys2Proof.Tests
end

section
/-! PROOFS. Sign and zero extension of fields (spec/00_scope.md R8). -/

namespace Sys2Proof.Laws

open Sys2Proof.Machine

theorem isNegative_eq_msb {n : Nat} (v : BitVec n) : isNegative v = v.msb :=
  (BitVec.msb_eq_getLsbD_last v).symm

theorem sext_of_isNegative_false {n : Nat} {v : BitVec n} (h : isNegative v = false) : sext v = v.setWidth 16 :=
  BitVec.signExtend_eq_setWidth_of_msb_false (isNegative_eq_msb v ▸ h)

/-- Bit by bit: below the field's width the extension has the field's bit, from there on the sign, which is 1. -/
theorem sext_of_isNegative_true {n : Nat} {v : BitVec n} (h : isNegative v = true) :
    sext v = v.setWidth 16 ||| (0xFFFF#16 <<< n) := by
  have hmsb : v.msb = true := isNegative_eq_msb v ▸ h
  ext i hi
  rw [sext, BitVec.getElem_signExtend]
  by_cases hin : i < n
  · simp [hin]
  · have hones : (0xFFFF#16)[i - n] = true := BitVec.getElem_allOnes (v := 16) (i - n) (by omega)
    simp [hin, hmsb, hones]

@[simp] theorem lowByte_zext (b : Byte) : lowByte (zext b) = b := by
  ext i hi
  have hi' : i < 16 := by omega
  simp [lowByte, zext, BitVec.getLsbD_eq_getElem hi, hi']

/-- The bits read are those from 8 on, where the byte has none. -/
@[simp] theorem highByte_zext (b : Byte) : highByte (zext b) = 0x00#8 := by
  ext i hi
  simp [highByte, zext]

end Sys2Proof.Laws

open Sys2Proof.Machine Sys2Proof.Laws

/-- Settles O2: `isNegative` is the top bit by definition, and each value of it has its rule for `sext`. -/
theorem signAndZeroExtension : Obligations.SignAndZeroExtension := by
  unfold Obligations.SignAndZeroExtension
  refine ⟨fun n _ _ v => ⟨rfl, fun h => ?positive, fun h => ?negative⟩, fun b => ?byte⟩
  case positive => exact sext_of_isNegative_false h
  case negative => exact sext_of_isNegative_true h
  case byte => exact ⟨lowByte_zext b, highByte_zext b⟩

end

section
/-! PROOFS. The condition flag (spec/10_state.md R26, R28): what reads it and what writes it. An operation that
commutes with `setCond` neither reads nor writes it; of the instructions without a flag destination all but BR do. -/

namespace Sys2Proof.Machine

open Sys2Proof.Safety

/-- The state with its flag set and nothing else changed. -/
def State.setCond (s : State) (c : Cond) : State :=
  { s with cond := c }

@[simp] theorem State.setCond_cond (s : State) (c : Cond) : (s.setCond c).cond = c := rfl

theorem State.setCond_self (s : State) : s.setCond s.cond = s := rfl

theorem mapNext_next (f : State → State) (t : State) : mapNext f (.next t) = .next (f t) := rfl

theorem mapNext_id (o : Outcome) : mapNext (fun t => t) o = o := by
  cases o <;> rfl

/-- The flag of a word by its bit 15 (R26). -/
theorem Cond.ofWord_eq (v : Word) :
    Cond.ofWord v = if v = 0x0000#16 then .zero else if v.getLsbD 15 = true then .negative else .positive := rfl

/-! ## The shared operations do not read the flag -/

theorem State.pollKeyboard_setCond (s : State) (c : Cond) :
    (s.setCond c).pollKeyboard = s.pollKeyboard.setCond c := by
  have hpoll : (s.setCond c).conPoll = (s.conPoll.1, s.conPoll.2.setCond c) := rfl
  rcases h : s.conPoll.1 with _ | b <;> simp only [State.pollKeyboard, hpoll, h] <;> rfl

theorem State.afterRead_setCond (s : State) (c : Cond) (a : Word) :
    (s.setCond c).afterRead a = (s.afterRead a).setCond c := by
  by_cases ha : a = Config.kbsr
  · rw [ha, State.afterRead_kbsr, State.afterRead_kbsr, State.pollKeyboard_setCond]
  · rw [State.afterRead_of_ne ha, State.afterRead_of_ne ha]

/-- A read gives the same word whatever the flag. -/
theorem State.memRead_setCond (s : State) (c : Cond) (a : Word) :
    (s.setCond c).memRead a = ((s.memRead a).1, (s.memRead a).2.setCond c) := by
  rw [State.memRead, State.afterRead_setCond]; rfl

/-- A load recomputes the flag, so the one before it is lost (R150). -/
theorem State.loadInto_setCond (s : State) (c : Cond) (dr : RegIdx) (a : Word) :
    (s.setCond c).loadInto dr a = s.loadInto dr a := by
  rw [State.loadInto, State.memRead_setCond]; rfl

theorem State.blockingRead_setCond (s : State) (c : Cond) (r : BlockedRead) :
    (s.setCond c).blockingRead r = (s.blockingRead r).setCond c := by
  rcases s.blockingRead_cases r with ⟨b, hlook, hr⟩ | ⟨hlook, hr⟩ | ⟨hlook, hr⟩
  · rw [hr, State.blockingRead_of_byte (s := s.setCond c) r hlook]
    cases r <;> rfl
  · rw [hr, State.blockingRead_of_quiet (s := s.setCond c) r hlook]; rfl
  · rw [hr, State.blockingRead_of_end (s := s.setCond c) r hlook]; rfl

theorem putsScan_setCond (n : Nat) (s : State) (c : Cond) (a : Word) :
    putsScan n (s.setCond c) a = (putsScan n s a).setCond c := by
  induction n generalizing s a with
  | zero => rfl
  | succ n ih =>
    rw [putsScan, putsScan, State.memRead_setCond]
    split
    · rfl
    · exact ih ((s.memRead a).2.conPut _) (a + 1)

theorem putspScan_setCond (n : Nat) (s : State) (c : Cond) (a : Word) :
    putspScan n (s.setCond c) a = (putspScan n s a).setCond c := by
  induction n generalizing s a with
  | zero => rfl
  | succ n ih =>
    rw [putspScan, putspScan, State.memRead_setCond]
    split
    · rfl
    · split
      · rfl
      · exact ih (((s.memRead a).2.conPut _).conPut _) (a + 1)

/-! ## The instructions without a flag destination -/

theorem execSti_setCond (sr : RegIdx) (off : BitVec 9) (s : State) (c : Cond) :
    execSti sr off (s.setCond c) = mapNext (·.setCond c) (execSti sr off s) := by
  rw [execSti, State.memRead_setCond]; rfl

theorem execGetc_setCond (s : State) (c : Cond) : execGetc (s.setCond c) = mapNext (·.setCond c) (execGetc s) :=
  congrArg Host.Outcome.next (s.link.blockingRead_setCond c .getc)

theorem execIn_setCond (s : State) (c : Cond) : execIn (s.setCond c) = mapNext (·.setCond c) (execIn s) :=
  congrArg Host.Outcome.next ((s.link.conPutAll Config.inPrompt).blockingRead_setCond c .inp)

theorem execPuts_setCond (s : State) (c : Cond) : execPuts (s.setCond c) = mapNext (·.setCond c) (execPuts s) :=
  congrArg Host.Outcome.next (putsScan_setCond _ s.link c _)

theorem execPutsp_setCond (s : State) (c : Cond) : execPutsp (s.setCond c) = mapNext (·.setCond c) (execPutsp s) :=
  congrArg Host.Outcome.next (putspScan_setCond _ s.link c _)

theorem execTrap_setCond (v : BitVec 8) (s : State) (c : Cond) :
    execTrap v (s.setCond c) = mapNext (·.setCond c) (execTrap v s) := by
  by_cases hv : ServedVector v
  · rcases (servedVector_iff v).mp hv with rfl | rfl | rfl | rfl | rfl | rfl
    · rw [execTrap_getc, execTrap_getc, execGetc_setCond]
    · rw [execTrap_out, execTrap_out]; rfl
    · rw [execTrap_puts, execTrap_puts, execPuts_setCond]
    · rw [execTrap_in, execTrap_in, execIn_setCond]
    · rw [execTrap_putsp, execTrap_putsp, execPutsp_setCond]
    · rw [execTrap_halt, execTrap_halt]; rfl
  · rw [execTrap_unserved hv, execTrap_unserved hv]; rfl

/-- Of the instructions without a flag destination only BR reads the flag (R28, R141): the others answer the same
state, with the flag it was given. -/
theorem exec_setCond_of_flagDest_none {i : Instr} (hd : flagDest i = none) (hbr : ∀ nzp off, i ≠ .br nzp off)
    (s : State) (c : Cond) : exec i (s.setCond c) = mapNext (·.setCond c) (exec i s) := by
  cases i with
  | br nzp off => exact absurd rfl (hbr nzp off)
  | st | str | jmp | ret | jsr | jsrr | rti | res | out | halt => rfl
  | sti sr off => exact execSti_setCond sr off s c
  | getc => exact execGetc_setCond s c
  | inp => exact execIn_setCond s c
  | puts => exact execPuts_setCond s c
  | putsp => exact execPutsp_setCond s c
  | trap v => exact execTrap_setCond v s c
  | addReg | addImm | andReg | andImm | not | ld | ldi | ldr | lea => cases hd

/-- BR sets PC or nothing (R141). -/
theorem execBr_cond {nzp : BitVec 3} {off : BitVec 9} {s t : State} (h : execBr nzp off s = .next t) :
    t.cond = s.cond := by
  obtain rfl := Host.Outcome.next.inj h
  split <;> rfl

/-- BR apart, setting the flag beforehand to what it is already sets it so afterwards. -/
theorem exec_cond_of_flagDest_none {i : Instr} {s t : State} (hd : flagDest i = none) (h : exec i s = .next t) :
    t.cond = s.cond := by
  by_cases hbr : ∃ nzp off, i = .br nzp off
  · obtain ⟨nzp, off, rfl⟩ := hbr
    exact execBr_cond h
  · have hset := exec_setCond_of_flagDest_none hd (fun nzp off hi => hbr ⟨nzp, off, hi⟩) s s.cond
    rw [State.setCond_self, h, mapNext_next] at hset
    rw [Host.Outcome.next.inj hset, State.setCond_cond]

/-! ## The seven instructions with a flag destination -/

/-- They end in `writeResult` of their DR (R28). -/
theorem exec_writesResult_of_flagDest {i : Instr} {dr : RegIdx} (hd : flagDest i = some dr) (s : State) :
    ∃ r v, exec i s = .next (State.writeResult r dr v) := by
  cases i with
  | addReg | addImm | andReg | andImm | not | lea | ld | ldi | ldr =>
    obtain rfl := Option.some.inj hd
    exact ⟨_, _, rfl⟩
  | br | st | str | sti | jmp | ret | jsr | jsrr | rti | res | trap | getc | out | puts | inp | putsp | halt => cases hd

theorem exec_cond_of_flagDest_some {i : Instr} {dr : RegIdx} {s t : State} (hd : flagDest i = some dr)
    (h : exec i s = .next t) : t.cond = Cond.ofWord (t.getReg dr) := by
  obtain ⟨r, v, hexec⟩ := exec_writesResult_of_flagDest hd s
  obtain rfl := Host.Outcome.next.inj (hexec.symm.trans h)
  rw [State.writeResult_cond, State.writeResult_getReg, if_pos rfl]

/-- They overwrite the flag without having read it. -/
theorem exec_setCond_of_flagDest_some {i : Instr} {dr : RegIdx} (hd : flagDest i = some dr) (s : State) (c : Cond) :
    exec i (s.setCond c) = exec i s := by
  cases i with
  | addReg | addImm | andReg | andImm | not | lea => rfl
  | ld | ldr => exact congrArg Host.Outcome.next (s.loadInto_setCond c _ _)
  | ldi dr off =>
    refine congrArg Host.Outcome.next ?_
    rw [State.memRead_setCond]
    exact State.loadInto_setCond _ c dr _
  | br | st | str | sti | jmp | ret | jsr | jsrr | rti | res | trap | getc | out | puts | inp | putsp | halt => cases hd

/-! ## The host's operations (R235) -/

/-- An act of the host that happens leaves what the act says (R242). -/
theorem State.byHost_eq_some {α : Type} {s : State} {act : State → α} {r : α} (h : s.byHost act = some r) :
    act s = r := by
  rw [State.byHost] at h
  split at h
  · exact Option.some.inj h
  · cases h

theorem storeWords_cond (s : State) (a : Word) (ws : List Word) : (storeWords s a ws).cond = s.cond := by
  induction ws generalizing s a with
  | nil => rfl
  | cons w ws ih => exact ih (s.memWrite a w) (a + 1)

theorem State.storeImage_cond (s : State) (bytes : List Byte) : (s.storeImage bytes).cond = s.cond := by
  rw [State.storeImage]
  split
  · rfl
  · exact storeWords_cond s _ _

end Sys2Proof.Machine

open Sys2Proof.Machine Sys2Proof.Safety

/-- Settles O37: an instruction with a flag destination ends in `writeResult` of it; the others but BR commute with
setting the flag, and so neither read nor write it. -/
theorem onlySevenInstructionsWriteFlag : Obligations.OnlySevenInstructionsWriteFlag := by
  unfold Obligations.OnlySevenInstructionsWriteFlag
  refine ⟨fun i s t h => ?written, fun i s c hbr => ?read, fun s bytes r h => ?load, fun s a r h => ?readMemory,
    fun s t h => ?resume⟩
  case written =>
    rcases hd : flagDest i with _ | dr
    · exact exec_cond_of_flagDest_none hd h
    · exact exec_cond_of_flagDest_some hd h
  case read =>
    rcases hd : flagDest i with _ | dr
    · exact exec_setCond_of_flagDest_none hd hbr s c
    · exact (exec_setCond_of_flagDest_some hd s c).trans (mapNext_id _).symm
  case load =>
    obtain rfl := State.byHost_eq_some h
    exact s.storeImage_cond bytes
  case readMemory =>
    obtain rfl := State.byHost_eq_some h
    exact s.afterRead_cond a
  case resume =>
    obtain rfl := State.byHost_eq_some h
    rfl

/-- Settles O3: `setcc` sets the flag of the register's word, and no other field. -/
theorem setccFollowsRegister : Obligations.SetccFollowsRegister := by
  unfold Obligations.SetccFollowsRegister
  intro s i
  exact ⟨(s.setcc_cond i).trans (Cond.ofWord_eq _), rfl⟩

end

section
/-! PROOFS. The fetch-decode-execute cycle (spec/40_cycle.md R121). -/

namespace Sys2Proof.Machine

/-- A cycle spelled out by its memory read: the word at the old PC is decoded, and executed in the state after the read
with PC incremented (R121). -/
theorem cycle_eq_exec (s : State) :
    cycle s = exec (decode (s.memRead s.pc).1) ((s.memRead s.pc).2.setPc (s.pc + 1)) := by
  rw [cycle, State.fetch_eq, State.memRead_snd]

end Sys2Proof.Machine

open Sys2Proof Sys2Proof.Machine

/-- Settles O44: between instructions a running core's step is a cycle, which executes what the word read at PC
decodes to. -/
theorem stepRunsDecodedInstruction : Obligations.StepRunsDecodedInstruction := by
  unfold Obligations.StepRunsDecodedInstruction
  intro s i hr hf hu hdecode
  calc step s = cycle s := step_of_finished hr hf hu
    _ = exec (decode (s.memRead s.pc).1) ((s.memRead s.pc).2.setPc (s.pc + 1)) := cycle_eq_exec s
    _ = exec i ((s.memRead s.pc).2.setPc (s.pc + 1)) := by rw [hdecode]

end

section
/-! PROOFS. The operate instructions (spec/41_operate.md R130 to R135): each decodes from its own row, and writes its
result over DR. -/

namespace Sys2Proof

/-- A decoder row's instruction that has no other name is what the word decodes to (R101). -/
theorem decode_of_decodeRow {w : Word} {i : Instr} (hrow : decodeRow w = i) (hname : nameAlias i = i) :
    decode w = i := by
  rw [decode, hrow, hname]

/-- Bit 5 splits opcode ADD (R131, R132). -/
theorem decodeRow_of_add {w : Word} (hop : opcodeOf (w.extractLsb' 12 4) = .add) :
    decodeRow w =
      if w.getLsbD 5 then .addImm (w.extractLsb' 9 3) (w.extractLsb' 6 3) (w.extractLsb' 0 5)
      else .addReg (w.extractLsb' 9 3) (w.extractLsb' 6 3) (w.extractLsb' 0 3) := by
  rw [decodeRow, hop]

/-- Bit 5 splits opcode AND (R133, R134). -/
theorem decodeRow_of_and {w : Word} (hop : opcodeOf (w.extractLsb' 12 4) = .and) :
    decodeRow w =
      if w.getLsbD 5 then .andImm (w.extractLsb' 9 3) (w.extractLsb' 6 3) (w.extractLsb' 0 5)
      else .andReg (w.extractLsb' 9 3) (w.extractLsb' 6 3) (w.extractLsb' 0 3) := by
  rw [decodeRow, hop]

/-- No bit below the source field is examined (R135). -/
theorem decodeRow_of_not {w : Word} (hop : opcodeOf (w.extractLsb' 12 4) = .not) :
    decodeRow w = .not (w.extractLsb' 9 3) (w.extractLsb' 6 3) := by
  rw [decodeRow, hop]

end Sys2Proof

namespace Sys2Proof.Safety

open Sys2Proof.Machine

/-- A sum written over DR, read as a number: the carry out of bit 15 is discarded (R130). -/
theorem WritesResult.toNat_add {s t : State} {dr : RegIdx} {a b : Word} (h : WritesResult s t dr (a + b)) :
    (t.getReg dr).toNat = (a.toNat + b.toNat) % 65536 := by
  obtain ⟨hresult, -⟩ := h
  rw [hresult]
  exact BitVec.toNat_add a b

end Sys2Proof.Safety

namespace Sys2Proof.Machine

/-- The complement of a word is its difference from 0xFFFF: no bit borrows (R135). -/
theorem exec_not (dr sr : RegIdx) (s : State) :
    exec (.not dr sr) s = .next (s.writeResult dr (0xFFFF#16 - s.getReg sr)) := by
  have hcompl : 0xFFFF#16 - s.getReg sr = ~~~ s.getReg sr := BitVec.allOnes_sub_eq_not (s.getReg sr)
  rw [hcompl]
  rfl

end Sys2Proof.Machine

open Sys2Proof Sys2Proof.Machine

/-- Settles O10: the sum is computed from the old registers, and `writeResult` writes it. -/
theorem addRegisterForm : Obligations.AddRegisterForm := by
  unfold Obligations.AddRegisterForm
  refine ⟨fun w hop h5 => ?decoding, fun dr sr1 sr2 s => ?effect⟩
  case decoding => exact decode_of_decodeRow ((decodeRow_of_add hop).trans (if_neg (ne_true_of_eq_false h5))) rfl
  case effect =>
    have hwrites := s.writeResult_writes dr (s.getReg sr1 + s.getReg sr2)
    exact ⟨_, rfl, hwrites, hwrites.toNat_add⟩

/-- Settles O11: as the register form, with the extended immediate for the second source. -/
theorem addImmediateForm : Obligations.AddImmediateForm := by
  unfold Obligations.AddImmediateForm
  refine ⟨fun w hop h5 => ?decoding, fun dr sr1 imm s => ?effect⟩
  case decoding => exact decode_of_decodeRow ((decodeRow_of_add hop).trans (if_pos h5)) rfl
  case effect =>
    have hwrites := s.writeResult_writes dr (s.getReg sr1 + sext imm)
    exact ⟨_, rfl, hwrites, hwrites.toNat_add⟩

/-- Settles O12: the conjunction is computed from the old registers, and `writeResult` writes it. -/
theorem andRegisterForm : Obligations.AndRegisterForm := by
  unfold Obligations.AndRegisterForm
  refine ⟨fun w hop h5 => ?decoding, fun dr sr1 sr2 s => ?effect⟩
  case decoding => exact decode_of_decodeRow ((decodeRow_of_and hop).trans (if_neg (ne_true_of_eq_false h5))) rfl
  case effect => exact ⟨_, rfl, s.writeResult_writes dr (s.getReg sr1 &&& s.getReg sr2)⟩

/-- Settles O13: the immediate is extended before the conjunction. -/
theorem andImmediateForm : Obligations.AndImmediateForm := by
  unfold Obligations.AndImmediateForm
  refine ⟨fun w hop h5 => ?decoding, fun dr sr1 imm s => ?effect⟩
  case decoding => exact decode_of_decodeRow ((decodeRow_of_and hop).trans (if_pos h5)) rfl
  case effect => exact ⟨_, rfl, s.writeResult_writes dr (s.getReg sr1 &&& sext imm)⟩

/-- Settles O14: the complement, written as a difference, is what `writeResult` writes. -/
theorem notInvertsAllBits : Obligations.NotInvertsAllBits := by
  unfold Obligations.NotInvertsAllBits
  refine ⟨fun w hop => ?decoding, fun dr sr s => ?effect⟩
  case decoding => exact decode_of_decodeRow (decodeRow_of_not hop) rfl
  case effect => exact ⟨_, exec_not dr sr s, s.writeResult_writes dr (0xFFFF#16 - s.getReg sr)⟩

end

section
/-! PROOFS. BR, JMP, RET and JSR (spec/42_control.md R140 to R144): each decodes from its own row, and jumps by a
`setPc`, after the link for JSR. -/

namespace Sys2Proof

/-- Every bit of a BR is examined (R141). -/
theorem decodeRow_of_br {w : Word} (hop : opcodeOf (w.extractLsb' 12 4) = .br) :
    decodeRow w = .br (w.extractLsb' 9 3) (w.extractLsb' 0 9) := by
  rw [decodeRow, hop]

/-- Only the base register is examined (R142). -/
theorem decodeRow_of_jmp {w : Word} (hop : opcodeOf (w.extractLsb' 12 4) = .jmp) :
    decodeRow w = .jmp (w.extractLsb' 6 3) := by
  rw [decodeRow, hop]

/-- Bit 11 splits opcode JSR (R144, R145). -/
theorem decodeRow_of_jsr {w : Word} (hop : opcodeOf (w.extractLsb' 12 4) = .jsr) :
    decodeRow w = if w.getLsbD 11 then .jsr (w.extractLsb' 0 11) else .jsrr (w.extractLsb' 6 3) := by
  rw [decodeRow, hop]

end Sys2Proof

namespace Sys2Proof.Machine

/-- The flag is always one of the three values, and each has its bit (R25, R27). -/
theorem Cond.flagbits_ne_zero (c : Cond) : c.flagbits ≠ 0#3 := by
  cases c <;> decide

theorem State.setPc_self (s : State) : s.setPc s.pc = s := rfl

/-- BR taken or not is one jump: not taken, its target is the incremented PC (R141). -/
theorem exec_br (nzp : BitVec 3) (off : BitVec 9) (s : State) :
    exec (.br nzp off) s =
      .next (s.setPc (if nzp &&& s.cond.flagbits ≠ 0#3 then s.pc + sext off else s.pc)) := by
  change execBr nzp off s = _
  rw [execBr, branchTaken]
  by_cases htaken : nzp &&& s.cond.flagbits ≠ 0#3
  · rw [if_pos htaken, if_pos (decide_eq_true htaken), State.pcRel9]
  · rw [if_neg htaken, if_neg (by rwa [decide_eq_true_iff]), State.setPc_self]

/-- Mask 000 has no bit in common with the flag (R141). -/
theorem exec_br_never (off : BitVec 9) (s : State) : exec (.br 0b000#3 off) s = .next s := by
  have hnone : ¬ (0b000#3 &&& s.cond.flagbits ≠ 0#3) := not_not_intro BitVec.zero_and
  rw [exec_br, if_neg hnone, State.setPc_self]

/-- Mask 111 has the flag's own bit in common with it (R141). -/
theorem exec_br_always (off : BitVec 9) (s : State) :
    exec (.br 0b111#3 off) s = .next (s.setPc (s.pc + sext off)) := by
  have hall : 0b111#3 &&& s.cond.flagbits = s.cond.flagbits := BitVec.allOnes_and
  rw [exec_br, hall, if_pos s.cond.flagbits_ne_zero]

end Sys2Proof.Machine

open Sys2Proof Sys2Proof.Machine

/-- Settles O15: taken or not, BR sets PC alone; the masks 000 and 111 decide it for every flag. -/
theorem branchOnFlag : Obligations.BranchOnFlag := by
  unfold Obligations.BranchOnFlag
  refine ⟨fun w hop => ?decoding, fun nzp off s => ?effect, fun off s => ?never, fun off s => ?always⟩
  case decoding => exact decode_of_decodeRow (decodeRow_of_br hop) rfl
  case effect => exact ⟨_, exec_br nzp off s, s.setPc_jumps _⟩
  case never => exact ⟨s, exec_br_never off s, rfl⟩
  case always => exact ⟨_, exec_br_always off s, State.setPc_pc s _⟩

/-- Settles O16: JMP sets PC to the register's value, which is not looked at. -/
theorem jumpThroughRegister : Obligations.JumpThroughRegister := by
  unfold Obligations.JumpThroughRegister
  refine ⟨fun w hop => ?decoding, fun base s => ?effect⟩
  case decoding => exact decodeRow_of_jmp hop
  case effect => exact ⟨_, rfl, s.setPc_jumps (s.getReg base)⟩

/-- Settles O18: R7 is linked to the old PC before PC is set, and the target is computed from that same PC. -/
theorem jumpToSubroutine : Obligations.JumpToSubroutine := by
  unfold Obligations.JumpToSubroutine
  refine ⟨fun w hop h11 => ?decoding, fun off s => ?effect⟩
  case decoding => exact decode_of_decodeRow ((decodeRow_of_jsr hop).trans (if_pos h11)) rfl
  case effect =>
    have hlink : (s.link.setPc (s.pc + sext off)).getReg 7 = s.pc := by
      rw [State.setPc_getReg, State.link_getReg, if_pos rfl]
    exact ⟨_, rfl, hlink, s.link_setPc_jumps (s.pc + sext off)⟩

/-- Settles O17: RET is the decoder's name for JMP R7, and the two run the same `jumpReg` (R143; log entry 4). -/
theorem returnIsJumpThroughR7 : Obligations.ReturnIsJumpThroughR7 := by
  unfold Obligations.ReturnIsJumpThroughR7
  refine ⟨fun w hop hbase => ?decoding, fun s => ?sameAsJmp, fun s => ?effect⟩
  case decoding => rw [decode, decodeRow_of_jmp hop, hbase, nameAlias, if_pos rfl]
  case sameAsJmp => rfl
  case effect => exact ⟨_, rfl, s.setPc_jumps (s.getReg 7)⟩

end

section
/-! PROOFS. Loads, LEA and stores (spec/43_load_store.md R150 to R158): each decodes from its own row. A load ends in
`loadInto`, LEA in `writeResult` and a store in `memWrite`; LDI and STI do so in the state the pointer read left, whose
frame is then composed with theirs. -/

namespace Sys2Proof

theorem decodeRow_of_ld {w : Word} (hop : opcodeOf (w.extractLsb' 12 4) = .ld) :
    decodeRow w = .ld (w.extractLsb' 9 3) (w.extractLsb' 0 9) := by
  rw [decodeRow, hop]

theorem decodeRow_of_ldi {w : Word} (hop : opcodeOf (w.extractLsb' 12 4) = .ldi) :
    decodeRow w = .ldi (w.extractLsb' 9 3) (w.extractLsb' 0 9) := by
  rw [decodeRow, hop]

theorem decodeRow_of_ldr {w : Word} (hop : opcodeOf (w.extractLsb' 12 4) = .ldr) :
    decodeRow w = .ldr (w.extractLsb' 9 3) (w.extractLsb' 6 3) (w.extractLsb' 0 6) := by
  rw [decodeRow, hop]

theorem decodeRow_of_lea {w : Word} (hop : opcodeOf (w.extractLsb' 12 4) = .lea) :
    decodeRow w = .lea (w.extractLsb' 9 3) (w.extractLsb' 0 9) := by
  rw [decodeRow, hop]

theorem decodeRow_of_st {w : Word} (hop : opcodeOf (w.extractLsb' 12 4) = .st) :
    decodeRow w = .st (w.extractLsb' 9 3) (w.extractLsb' 0 9) := by
  rw [decodeRow, hop]

theorem decodeRow_of_sti {w : Word} (hop : opcodeOf (w.extractLsb' 12 4) = .sti) :
    decodeRow w = .sti (w.extractLsb' 9 3) (w.extractLsb' 0 9) := by
  rw [decodeRow, hop]

theorem decodeRow_of_str {w : Word} (hop : opcodeOf (w.extractLsb' 12 4) = .str) :
    decodeRow w = .str (w.extractLsb' 9 3) (w.extractLsb' 6 3) (w.extractLsb' 0 6) := by
  rw [decodeRow, hop]

end Sys2Proof

namespace Sys2Proof.Safety

open Sys2Proof.Machine

theorem StatusFrame.trans {s r t : State} (h : StatusFrame s r) (k : StatusFrame r t) : StatusFrame s t := by
  obtain ⟨hrun, hfault, hunf⟩ := h
  obtain ⟨krun, kfault, kunf⟩ := k
  exact ⟨krun.trans hrun, kfault.trans hfault, kunf.trans hunf⟩

/-- A load from the state a pointer read left is a load from the state before that read: both accesses spare all but
the keyboard words and the console input (R152). -/
theorem LoadsResult.of_afterRead {s r t : State} {p : Word} {dr : RegIdx} {v : Word}
    (h : LoadsResult (s.afterRead p) r t dr v) : LoadsResult s r t dr v := by
  obtain ⟨hval, hcond, hregs, hpc, hmem, hkbd, hcon, hout, hst⟩ := h
  obtain ⟨hregs', hpc', hkbd', hout', hst'⟩ := s.afterRead_frames p
  exact ⟨hval, hcond, fun i hi => (hregs i hi).trans (hregs' i List.not_mem_nil), hpc.trans hpc', hmem,
    fun b hb => (hkbd b hb).trans (hkbd' b hb), hcon, hout.trans hout', hst'.trans hst⟩

/-- A store in the state a pointer read left changes the word it stores and what that read changes: the keyboard words
and the console input (R157). -/
theorem StoresWord.frames_of_afterRead {s t : State} {p a v : Word} (h : StoresWord (s.afterRead p) t a v) :
    MemFrame s t [a, Config.kbsr, Config.kbdr] ∧ RegsFrame s t [] ∧ t.pc = s.pc ∧ t.cond = s.cond ∧
      t.con.output = s.con.output ∧ StatusFrame s t := by
  obtain ⟨-, hmem, hregs, hpc, hcond, hcon, hst⟩ := h
  obtain ⟨hregs', hpc', hkbd', hout', hst'⟩ := s.afterRead_frames p
  have hmemAll : MemFrame s t [a, Config.kbsr, Config.kbdr] := fun b hb => by
    obtain ⟨hba, hbk⟩ := not_or.mp (mt List.mem_cons.mpr hb)
    exact (hmem b (mt List.mem_singleton.mp hba)).trans (hkbd' b hbk)
  exact ⟨hmemAll, fun i hi => (hregs i hi).trans (hregs' i hi), hpc.trans hpc', hcond.trans (s.afterRead_cond p),
    (congrArg Console.output hcon).trans hout', hst'.trans hst⟩

end Sys2Proof.Safety

namespace Sys2Proof.Machine

open Sys2Proof.Safety

/-- How LD, LDI and LDR end, whatever the address (R150). -/
theorem State.loadInto_loads (s : State) (dr : RegIdx) (a : Word) :
    LoadsResult s (s.memRead a).2 (s.loadInto dr a) dr (s.memRead a).1 := by
  obtain ⟨hregs, hpc, hmem, hout, hst⟩ := s.afterRead_frames a
  exact State.writeResult_loads dr (s.memRead a).1 hregs hpc hmem hout hst

/-- Off 0xFE00 a load writes the stored word over DR and does nothing else (R51, R150). -/
theorem State.loadInto_writes_of_ne {s : State} {a : Word} (dr : RegIdx) (ha : a ≠ Config.kbsr) :
    WritesResult s (s.loadInto dr a) dr (s.mem.read a) := by
  rw [State.loadInto, State.memRead_of_ne ha]
  exact s.writeResult_writes dr (s.mem.read a)

/-- How the three stores end, whatever the address (R54). -/
theorem State.memWrite_stores (s : State) (a v : Word) : StoresWord s (s.memWrite a v) a v :=
  ⟨Memory.read_write_self s.mem a v, s.memWrite_frame a v, regsFrame_of_regs rfl _, rfl, rfl, rfl, ⟨rfl, rfl, rfl⟩⟩

end Sys2Proof.Machine

open Sys2Proof Sys2Proof.Machine

/-- Settles O20: LD is one `loadInto` at the PC-relative address. -/
theorem loadPcRelative : Obligations.LoadPcRelative := by
  unfold Obligations.LoadPcRelative
  refine ⟨fun w hop => ?decoding, fun dr off s => ?effect⟩
  case decoding => exact decode_of_decodeRow (decodeRow_of_ld hop) rfl
  case effect => exact ⟨_, rfl, s.loadInto_loads dr (s.pc + sext off), State.loadInto_writes_of_ne dr⟩

/-- Settles O21: LDI is a `loadInto` at the pointer, in the state the pointer's read left; off 0xFE00 that state is the
one before it. -/
theorem loadIndirect : Obligations.LoadIndirect := by
  unfold Obligations.LoadIndirect
  refine ⟨fun w hop => ?decoding, fun dr off s => ⟨_, rfl, ?reads, fun hptr haddr => ?plain⟩⟩
  case decoding => exact decode_of_decodeRow (decodeRow_of_ldi hop) rfl
  case reads =>
    have hload := (s.afterRead (s.pc + sext off)).loadInto_loads dr (s.memRead (s.pc + sext off)).1
    exact hload.of_afterRead
  case plain =>
    rw [State.pcRel9, State.memRead_of_ne hptr]
    exact State.loadInto_writes_of_ne dr haddr

/-- Settles O22: LDR is one `loadInto`, whose address is computed from the base before DR is written. -/
theorem loadBaseOffset : Obligations.LoadBaseOffset := by
  unfold Obligations.LoadBaseOffset
  refine ⟨fun w hop => ?decoding, fun dr base off s => ?effect⟩
  case decoding => exact decode_of_decodeRow (decodeRow_of_ldr hop) rfl
  case effect => exact ⟨_, rfl, s.loadInto_loads dr (s.getReg base + sext off), State.loadInto_writes_of_ne dr⟩

/-- Settles O23: LEA writes the address itself over DR. -/
theorem loadEffectiveAddress : Obligations.LoadEffectiveAddress := by
  unfold Obligations.LoadEffectiveAddress
  refine ⟨fun w hop => ?decoding, fun dr off s => ?effect⟩
  case decoding => exact decode_of_decodeRow (decodeRow_of_lea hop) rfl
  case effect => exact ⟨_, rfl, s.writeResult_writes dr (s.pc + sext off)⟩

/-- Settles O24: ST is one `memWrite` at the PC-relative address. -/
theorem storePcRelative : Obligations.StorePcRelative := by
  unfold Obligations.StorePcRelative
  refine ⟨fun w hop => ?decoding, fun sr off s => ?effect⟩
  case decoding => exact decode_of_decodeRow (decodeRow_of_st hop) rfl
  case effect => exact ⟨_, rfl, s.memWrite_stores (s.pc + sext off) (s.getReg sr)⟩

/-- Settles O25: STI is a `memWrite` at the pointer, in the state the pointer's read left; off 0xFE00 that state is the
one before it. -/
theorem storeIndirect : Obligations.StoreIndirect := by
  unfold Obligations.StoreIndirect
  refine ⟨fun w hop => ?decoding, fun sr off s => ⟨_, rfl, ?effect⟩⟩
  case decoding => exact decode_of_decodeRow (decodeRow_of_sti hop) rfl
  case effect =>
    have hstore := (s.afterRead (s.pc + sext off)).memWrite_stores (s.memRead (s.pc + sext off)).1 (s.getReg sr)
    obtain ⟨hmem, hregs, hpc, hcond, hout, hst⟩ := hstore.frames_of_afterRead
    refine ⟨⟨hstore, hmem⟩, hregs, hpc, hcond, hout, hst, fun hptr => ?plain⟩
    case plain =>
      rw [State.pcRel9, State.memRead_of_ne hptr]
      exact s.memWrite_stores (s.mem.read (s.pc + sext off)) (s.getReg sr)

/-- Settles O26: STR is one `memWrite` at the base-plus-offset address. -/
theorem storeBaseOffset : Obligations.StoreBaseOffset := by
  unfold Obligations.StoreBaseOffset
  refine ⟨fun w hop => ?decoding, fun sr base off s => ?effect⟩
  case decoding => exact decode_of_decodeRow (decodeRow_of_str hop) rfl
  case effect => exact ⟨_, rfl, s.memWrite_stores (s.getReg base + sext off) (s.getReg sr)⟩

end

section
/-! PROOFS. The trap services (spec/44_trap_system.md R170, R173): each decodes from the TRAP row by its vector, links
R7, and then serves in the state so linked. -/

namespace Sys2Proof

/-- Bits 11:8 of a TRAP are not examined (R94, R170). -/
theorem decodeRow_of_trap {w : Word} (hop : opcodeOf (w.extractLsb' 12 4) = .trap) :
    decodeRow w = .trap (w.extractLsb' 0 8) := by
  rw [decodeRow, hop]

/-- The name of TRAP x21 (R97, R101). -/
theorem nameAlias_trapOut : nameAlias (.trap trapOut) = .out := by
  rw [nameAlias, if_neg (by decide), if_pos rfl]

end Sys2Proof

namespace Sys2Proof.Safety

open Sys2Proof.Machine

/-- A service that leaves the linked R7, PC and the flag alone leaves what every TRAP leaves (R170). -/
theorem TrapEntered.of_link {s t : State} {ds : List RegIdx} (h7 : 7 ∉ ds) (hregs : RegsFrame s.link t ds)
    (hpc : t.pc = s.link.pc) (hcond : t.cond = s.link.cond) : TrapEntered s t ds := by
  have hlinked : t.getReg 7 = s.pc := by rw [hregs 7 h7, State.link_getReg, if_pos rfl]
  have hothers : RegsFrame s t (7 :: ds) := fun i hi =>
    (hregs i fun hds => hi (List.mem_cons_of_mem 7 hds)).trans (s.link_regsFrame ds i hi)
  exact ⟨hlinked, hothers, hpc, hcond⟩

end Sys2Proof.Safety

namespace Sys2Proof.Machine

/-- The link comes before the service, and R0, which the service prints from, is not the linked register (R170,
R173). -/
theorem exec_out (s : State) : exec .out s = .next (s.link.conPut (lowByte (s.getReg 0))) := by
  have hr0 : s.link.getReg 0 = s.getReg 0 := by rw [State.link_getReg, if_neg (by decide)]
  change execOut s = _
  rw [execOut, State.serveOut, State.conFlush_eq, hr0]

end Sys2Proof.Machine

open Sys2Proof Sys2Proof.Machine Sys2Proof.Safety

/-- Settles O29: OUT is the decoder's name for its vector's TRAP (log entry 4), and in the linked state it only appends
to the console output. -/
theorem outPrintsLowByte : Obligations.OutPrintsLowByte := by
  unfold Obligations.OutPrintsLowByte
  refine ⟨fun w hop hvect => ?decoding, fun s => ⟨_, exec_out s, rfl, ?trap, memFrame_of_mem rfl _, rfl, rfl, rfl⟩⟩
  case decoding => rw [decode, decodeRow_of_trap hop, hvect, nameAlias_trapOut]
  case trap => exact .of_link List.not_mem_nil (regsFrame_of_regs rfl _) rfl rfl

end

section
/-! PROOFS. What the trap services leave (spec/44_trap_system.md R170 to R179), in the state after the link as well as
in one taken up unfinished. -/

namespace Sys2Proof.Safety

open Sys2Proof.Machine

/-- What a service leaves of the state it runs in, whether just entered or taken up again (R179, R216): the registers
outside `ds`, PC, the flag, the run bit, memory but for the keyboard words, and the console gone forward. It faults at
the end of the input only, and has then finished (R67). -/
structure ServedFrom (s t : State) (ds : List RegIdx) : Prop where
  regs : RegsFrame s t ds
  pc : t.pc = s.pc
  cond : t.cond = s.cond
  running : t.running = s.running
  mem : MemFrame s t [Config.kbsr, Config.kbdr]
  wf : s.mem.wf → t.mem.wf
  con : Advances s.con t.con
  fault : t.fault = s.fault ∨
    (s.con.look.1 = none ∧ t.fault = some .consoleEndOfInput ∧ t.unfinished = none ∧ ds = [0])

/-- A string scan writes no register and raises nothing (R174, R176). -/
theorem ServedFrom.of_scanned {s t : State} (h : Scanned s t) : ServedFrom s t [] where
  regs := regsFrame_of_regs h.regs _
  pc := h.pc
  cond := h.cond
  running := h.running
  mem := h.mem
  wf := h.wf
  con := h.con
  fault := .inl h.fault

/-- A trap whose service has run from the linked state is entered (R170, R179). -/
theorem ServedFrom.trapEntered {s t : State} {ds : List RegIdx} (h : ServedFrom s.link t ds) (h7 : 7 ∉ ds) :
    TrapEntered s t ds :=
  .of_link h7 h.regs h.pc h.cond

end Sys2Proof.Safety

namespace Sys2Proof.Machine

open Sys2Proof.Safety

theorem Console.look_put_fst (c : Console) (bs : List Byte) : (c.put bs).look.1 = c.look.1 := by
  rw [Console.look_put]

/-- A look beside output that has just been added: the moment taken, and the output with the bytes at its end. -/
theorem Console.look_put_snd (c : Console) (bs : List Byte) :
    (c.put bs).look.2 = { c.look.2 with output := c.output ++ bs } := by
  rw [Console.look_put, Console.put, c.look_advances.2]

theorem State.blockingRead_mem (s : State) (r : BlockedRead) : (s.blockingRead r).mem = s.mem := by
  obtain ⟨-, -, -, hmem, -⟩ := s.blockingRead_frames r
  exact hmem

/-- A blocking read faults only at the end of the input, and has then finished (R67). -/
theorem State.blockingRead_fault (s : State) (r : BlockedRead) :
    (s.blockingRead r).fault = s.fault ∨
      (s.con.look.1 = none ∧ (s.blockingRead r).fault = some .consoleEndOfInput ∧
        (s.blockingRead r).unfinished = none) := by
  rcases s.blockingRead_cases r with ⟨c, -, h⟩ | ⟨-, h⟩ | ⟨hlook, h⟩ <;> rw [h]
  · exact .inl (by rw [State.deliver_eq]; rfl)
  · exact .inl rfl
  · exact .inr ⟨hlook, rfl, rfl⟩

/-- A blocking read after some output, which IN's is (R175) and GETC's is with none. -/
theorem State.blockingRead_servedFrom {s u : State} (r : BlockedRead) (hu : Scanned s u) (hmem : u.mem = s.mem)
    (hlook : u.con.look.1 = s.con.look.1) : ServedFrom s (u.blockingRead r) [0] := by
  obtain ⟨hregs, hpc, hcond, hmem', hrun⟩ := u.blockingRead_frames r
  have hmemAll : (u.blockingRead r).mem = s.mem := hmem'.trans hmem
  refine ⟨fun i hi => (hregs i hi).trans (State.getReg_congr hu.regs i), hpc.trans hu.pc, hcond.trans hu.cond,
    hrun.trans hu.running, memFrame_of_mem hmemAll _, fun h => hmemAll ▸ h,
    hu.con.trans (u.blockingRead_advances r), ?fault⟩
  case fault =>
    rcases u.blockingRead_fault r with h | ⟨hend, hf, hunf⟩
    · exact .inl (h.trans hu.fault)
    · exact .inr ⟨hlook ▸ hend, hf, hunf, rfl⟩

theorem Scanned.putAll (s : State) (bs : List Byte) : Scanned s (s.conPutAll bs) :=
  { Scanned.refl s with con := Console.put_advances _ _ }

/-- What an unfinished instruction leaves when it is taken up again (R216). -/
theorem State.goOn_servedFrom (s : State) (u : Unfinished) : ∃ ds, 7 ∉ ds ∧ ServedFrom s (s.goOn u) ds := by
  cases u with
  | reading r => exact ⟨[0], by decide, State.blockingRead_servedFrom r (Scanned.refl s) rfl rfl⟩
  | puts a => exact ⟨[], by decide, .of_scanned (putsStep_scanned (s.putsFrom_step a))⟩
  | putsp a => exact ⟨[], by decide, .of_scanned (putspStep_scanned (s.putspFrom_step a))⟩

end Sys2Proof.Machine
end

section
/-! PROOFS. GETC, PUTS, IN and HALT (spec/44_trap_system.md R170, R172, R174, R175, R177): each runs its service in
the linked state. -/

namespace Sys2Proof.Machine

open Sys2Proof.Safety

/-- R0, from which a string service takes its address, is not the linked register. -/
theorem State.link_getReg_zero (s : State) : s.link.getReg 0 = s.getReg 0 := by
  rw [State.link_getReg, if_neg (by decide)]

theorem State.link_getReg_seven (s : State) : s.link.getReg 7 = s.pc := by
  rw [State.link_getReg, if_pos rfl]

theorem exec_getc (s : State) : exec .getc s = .next (s.link.blockingRead .getc) := rfl

theorem exec_inp (s : State) : exec .inp s = .next ((s.link.conPutAll Config.inPrompt).blockingRead .inp) := rfl

theorem exec_puts (s : State) : exec .puts s = .next (s.link.putsFrom (s.getReg 0)) := by
  rw [← s.link_getReg_zero]; rfl

theorem exec_putsp (s : State) : exec .putsp s = .next (s.link.putspFrom (s.getReg 0)) := by
  rw [← s.link_getReg_zero]; rfl

theorem exec_halt (s : State) : exec .halt s = .next s.link.serveHalt := rfl

theorem State.link_getc_servedFrom (s : State) : ServedFrom s.link (s.link.blockingRead .getc) [0] :=
  State.blockingRead_servedFrom .getc (Scanned.refl _) rfl rfl

theorem State.link_inp_servedFrom (s : State) :
    ServedFrom s.link ((s.link.conPutAll Config.inPrompt).blockingRead .inp) [0] :=
  State.blockingRead_servedFrom .inp (Scanned.putAll _ _) rfl (Console.look_put_fst _ _)

theorem State.link_puts_servedFrom (s : State) (a : Word) : ServedFrom s.link (s.link.putsFrom a) [] :=
  .of_scanned (putsStep_scanned (s.link.putsFrom_step a))

theorem State.link_putsp_servedFrom (s : State) (a : Word) : ServedFrom s.link (s.link.putspFrom a) [] :=
  .of_scanned (putspStep_scanned (s.link.putspFrom_step a))

/-- A service that leaves the linked registers, PC, the flag and memory alone, but raises (R203). -/
theorem raises_of_link {s t : State} {c : FaultCause} (hf : t.fault = some c) (hrun : t.running = s.running)
    (hregs : t.regs = s.link.regs) (hpc : t.pc = s.pc) (hcond : t.cond = s.cond) (hmem : t.mem = s.mem) :
    Raises s t c [7] :=
  ⟨hf, hrun, fun i hi => (State.getReg_congr hregs i).trans (s.link_regsFrame [] i hi), hpc, hcond,
    memFrame_of_mem hmem _⟩

end Sys2Proof.Machine
open Sys2Proof Sys2Proof.Machine Sys2Proof.Safety

/-- Settles O28: GETC is a blocking read in the linked state, by the three things a look at the console can find. -/
theorem getcReadsOneByte : Obligations.GetcReadsOneByte := by
  unfold Obligations.GetcReadsOneByte
  refine ⟨fun s c hlook => ?byte, fun s hlook => ?quiet, fun s hlook => ?ended⟩
  case byte =>
    have hentered := s.link_getc_servedFrom.trapEntered (by decide)
    rw [exec_getc, State.blockingRead_of_byte (s := s.link) .getc hlook] at *
    exact ⟨_, rfl, State.setReg_getReg _ 0 _ 0, hentered, memFrame_of_mem rfl _, rfl, rfl, rfl, rfl⟩
  case quiet =>
    rw [exec_getc, State.blockingRead_of_quiet (s := s.link) .getc hlook]
    exact ⟨_, rfl, .of_link List.not_mem_nil (regsFrame_of_regs rfl _) rfl rfl, memFrame_of_mem rfl _, rfl, rfl, rfl,
      rfl⟩
  case ended =>
    rw [exec_getc, State.blockingRead_of_end (s := s.link) .getc hlook]
    exact ⟨_, rfl, raises_of_link rfl rfl rfl rfl rfl rfl, s.link_getReg_seven, rfl, rfl⟩

/-- Settles O32: IN is GETC with the prompt put out before the look at the console, which finds what it would have
found without. -/
theorem inPromptsAndEchoes : Obligations.InPromptsAndEchoes := by
  unfold Obligations.InPromptsAndEchoes
  have hprompted (s : State) : (s.link.conPutAll Config.inPrompt).con.look.1 = s.con.look.1 :=
    Console.look_put_fst s.con _
  have hcon (s : State) : (s.link.conPutAll Config.inPrompt).con.look.2 =
      { s.con.look.2 with output := s.con.output ++ Config.inPrompt } := Console.look_put_snd s.con _
  refine ⟨fun s c hlook => ?byte, fun s hlook => ?quiet, fun s hlook => ?ended⟩
  case byte =>
    have hentered := s.link_inp_servedFrom.trapEntered (by decide)
    rw [exec_inp, State.blockingRead_of_byte .inp ((hprompted s).trans hlook), hcon] at *
    exact ⟨_, rfl, State.setReg_getReg _ 0 _ 0, hentered, memFrame_of_mem rfl _, rfl, rfl, rfl, rfl⟩
  case quiet =>
    rw [exec_inp, State.blockingRead_of_quiet .inp ((hprompted s).trans hlook), hcon]
    exact ⟨_, rfl, .of_link List.not_mem_nil (regsFrame_of_regs rfl _) rfl rfl, memFrame_of_mem rfl _, rfl, rfl, rfl,
      rfl⟩
  case ended =>
    rw [exec_inp, State.blockingRead_of_end .inp ((hprompted s).trans hlook), hcon]
    exact ⟨_, rfl, raises_of_link rfl rfl rfl rfl rfl rfl, s.link_getReg_seven, rfl, rfl⟩

/-- Settles O30: PUTS is one step of its scan in the linked state. -/
theorem putsFollowsItsLoop : Obligations.PutsFollowsItsLoop := by
  unfold Obligations.PutsFollowsItsLoop
  intro s
  have hstep := s.link.putsFrom_step (s.getReg 0)
  exact ⟨_, exec_puts s, hstep, (putsStep_scanned hstep).of_link⟩

/-- Settles O34: after the link HALT clears the run bit alone. -/
theorem haltClearsRunning : Obligations.HaltClearsRunning := by
  unfold Obligations.HaltClearsRunning
  intro s
  exact ⟨_, exec_halt s, rfl, .of_link List.not_mem_nil (regsFrame_of_regs rfl _) rfl rfl, memFrame_of_mem rfl _, rfl,
    rfl, rfl⟩

end

section
/-! PROOFS. Strings clear of 0xFE00 (spec/44_trap_system.md R174, R176): a scan of one prints it and finishes. -/

namespace Sys2Proof.Machine

open Sys2Proof.Safety

theorem State.conPutAll_nil (s : State) : s.conPutAll [] = s := by
  rw [State.conPutAll, Console.put, List.append_nil]; rfl

theorem State.conPutAll_conPutAll (s : State) (xs ys : List Byte) :
    (s.conPutAll xs).conPutAll ys = s.conPutAll (xs ++ ys) :=
  congrArg s.setCon (Console.put_put s.con xs ys)

/-- A string that stays clear of 0xFE00 is shorter than what one step of a scan reads. -/
theorem lt_wordsToPoll {a : Word} {n : Nat} (h : ∀ k, k ≤ n → a + BitVec.ofNat 16 k ≠ Config.kbsr) :
    n < wordsToPoll a := by
  by_contra hle
  refine h (Config.kbsr - a).toNat (by rw [wordsToPoll] at hle; omega) ?_
  rw [BitVec.ofNat_toNat, BitVec.setWidth_eq]
  bv_omega

/-- Words `ws` stand at `a` and on, none of them at 0xFE00, nor the word after them. -/
structure StringAt (m : Memory) (a : Word) (ws : List Word) : Prop where
  clear : ∀ k, k ≤ ws.length → a + BitVec.ofNat 16 k ≠ Config.kbsr
  word : ∀ k (h : k < ws.length), m.read (a + BitVec.ofNat 16 k) = ws[k]

theorem StringAt.ne_kbsr {m : Memory} {a : Word} {ws : List Word} (h : StringAt m a ws) : a ≠ Config.kbsr := by
  simpa only [BitVec.add_zero] using h.clear 0 (Nat.zero_le _)

theorem StringAt.head {m : Memory} {a w : Word} {ws : List Word} (h : StringAt m a (w :: ws)) : m.read a = w := by
  simpa only [BitVec.add_zero, List.getElem_cons_zero] using h.word 0 (Nat.succ_pos _)

theorem StringAt.tail {m : Memory} {a w : Word} {ws : List Word} (h : StringAt m a (w :: ws)) :
    StringAt m (a + 1) ws where
  clear k hk := by rw [add_ofNat_succ]; exact h.clear (k + 1) (Nat.succ_le_succ hk)
  word k hk := by rw [add_ofNat_succ]; exact h.word (k + 1) (Nat.succ_lt_succ hk)

/-- The scan of PUTS over a string of words that are not zero, a zero word after it: the low bytes are printed and the
instruction finishes (R174). -/
theorem putsScan_of_string {n : Nat} {s : State} {a : Word} {ws : List Word} (hn : ws.length < n)
    (hs : StringAt s.mem a ws) (hne : ∀ w ∈ ws, w ≠ 0x0000#16)
    (hz : s.mem.read (a + BitVec.ofNat 16 ws.length) = 0x0000#16) :
    putsScan n s a = (s.conPutAll (ws.map lowByte)).setUnfinished none := by
  induction ws generalizing n s a with
  | nil =>
    obtain ⟨n, rfl⟩ := Nat.exists_eq_succ_of_ne_zero (Nat.ne_zero_of_lt hn)
    rw [List.length_nil, BitVec.add_zero] at hz
    rw [putsScan, State.memRead_of_ne hs.ne_kbsr, if_pos hz, List.map_nil, State.conPutAll_nil, State.conFlush_eq]
  | cons w ws ih =>
    obtain ⟨n, rfl⟩ := Nat.exists_eq_succ_of_ne_zero (Nat.ne_zero_of_lt hn)
    rw [List.length_cons, ← add_ofNat_succ] at hz
    rw [putsScan, State.memRead_of_ne hs.ne_kbsr, hs.head, if_neg (hne w List.mem_cons_self),
      ih (s := s.conPut _) (Nat.lt_of_succ_lt_succ hn) hs.tail (fun v hv => hne v (List.mem_cons_of_mem w hv)) hz]
    exact congrArg (State.setUnfinished · none) (s.conPutAll_conPutAll [lowByte w] _)

/-- The scan of PUTSP over a string of words without a zero byte, a word with one after it: every byte before the first
zero byte is printed and the instruction finishes (R176). -/
theorem putspScan_of_string {n : Nat} {s : State} {a w : Word} {ws : List Word} (hn : ws.length < n)
    (hs : StringAt s.mem a ws) (hne : ∀ v ∈ ws, lowByte v ≠ 0x00#8 ∧ highByte v ≠ 0x00#8)
    (hw : s.mem.read (a + BitVec.ofNat 16 ws.length) = w) (hz : lowByte w = 0x00#8 ∨ highByte w = 0x00#8) :
    putspScan n s a = (s.conPutAll (ws.flatMap (fun v => [lowByte v, highByte v]) ++
      (if lowByte w = 0x00#8 then [] else [lowByte w]))).setUnfinished none := by
  induction ws generalizing n s a with
  | nil =>
    obtain ⟨n, rfl⟩ := Nat.exists_eq_succ_of_ne_zero (Nat.ne_zero_of_lt hn)
    rw [List.length_nil, BitVec.add_zero] at hw
    rw [putspScan, State.memRead_of_ne hs.ne_kbsr, hw]
    by_cases hlo : lowByte w = 0x00#8
    · rw [if_pos hlo, if_pos hlo, List.flatMap_nil, List.nil_append, State.conPutAll_nil, State.conFlush_eq]
    · rw [if_neg hlo, if_neg hlo, if_pos (hz.resolve_left hlo), List.flatMap_nil, List.nil_append]; rfl
  | cons v ws ih =>
    obtain ⟨n, rfl⟩ := Nat.exists_eq_succ_of_ne_zero (Nat.ne_zero_of_lt hn)
    obtain ⟨hlo, hhi⟩ := hne v List.mem_cons_self
    rw [List.length_cons, ← add_ofNat_succ] at hw
    rw [putspScan, State.memRead_of_ne hs.ne_kbsr, hs.head, if_neg hlo, if_neg hhi,
      ih (s := (s.conPut _).conPut _) (Nat.lt_of_succ_lt_succ hn) hs.tail
        (fun u hu => hne u (List.mem_cons_of_mem v hu)) hw]
    have hput : (s.conPut (lowByte v)).conPut (highByte v) = s.conPutAll [lowByte v, highByte v] :=
      s.conPutAll_conPutAll [lowByte v] [highByte v]
    rw [hput, State.conPutAll_conPutAll, List.flatMap_cons, List.append_assoc]

/-- A service that has printed `bs` after the link and finished. -/
theorem State.link_printed (s : State) (bs : List Byte) :
    ((s.link.conPutAll bs).setUnfinished none).con = { s.con with output := s.con.output ++ bs } ∧
      TrapEntered s ((s.link.conPutAll bs).setUnfinished none) [] ∧
      MemFrame s ((s.link.conPutAll bs).setUnfinished none) [] :=
  ⟨rfl, .of_link List.not_mem_nil (regsFrame_of_regs rfl _) rfl rfl, memFrame_of_mem rfl _⟩

end Sys2Proof.Machine

open Sys2Proof Sys2Proof.Machine Sys2Proof.Safety

/-- Settles O31: one step of the scan reaches past the string. -/
theorem putsPrintsZeroTerminatedString : Obligations.PutsPrintsZeroTerminatedString := by
  unfold Obligations.PutsPrintsZeroTerminatedString
  intro s ws hclear hwords hz
  have hne : ∀ w ∈ ws, w ≠ 0x0000#16 := fun w hw => by
    obtain ⟨k, hk, rfl⟩ := List.getElem_of_mem hw
    exact (hwords k hk).2
  rw [exec_puts, State.putsFrom,
    putsScan_of_string (s := s.link) (lt_wordsToPoll hclear) ⟨hclear, fun k hk => (hwords k hk).1⟩ hne hz]
  obtain ⟨hcon, htrap, hmem⟩ := s.link_printed (ws.map lowByte)
  exact ⟨_, rfl, hcon, htrap, hmem, rfl, rfl, rfl⟩

/-- Settles O33: PUTSP is one step of its scan in the linked state, which reaches past a string clear of 0xFE00. -/
theorem putspFollowsItsLoop : Obligations.PutspFollowsItsLoop := by
  unfold Obligations.PutspFollowsItsLoop
  refine ⟨fun s => ?loop, fun s ws w hclear hwords hw hz => ?string⟩
  case loop =>
    have hstep := s.link.putspFrom_step (s.getReg 0)
    exact ⟨_, exec_putsp s, hstep, (putspStep_scanned hstep).of_link⟩
  case string =>
    have hne : ∀ v ∈ ws, lowByte v ≠ 0x00#8 ∧ highByte v ≠ 0x00#8 := fun v hv => by
      obtain ⟨k, hk, rfl⟩ := List.getElem_of_mem hv
      exact (hwords k hk).2
    rw [exec_putsp, State.putspFrom,
      putspScan_of_string (s := s.link) (lt_wordsToPoll hclear) ⟨hclear, fun k hk => (hwords k hk).1⟩ hne hw hz]
    obtain ⟨hcon, htrap, hmem⟩ := s.link_printed
      (ws.flatMap (fun v => [lowByte v, highByte v]) ++ (if lowByte w = 0x00#8 then [] else [lowByte w]))
    rw [← List.append_assoc] at hcon
    exact ⟨_, rfl, hcon, htrap, hmem, rfl, rfl, rfl⟩
end

section
/-! PROOFS. What any instruction leaves, said once (R22, R24, R29, R55, R202): `exec_leaves`. An instruction that is no
TRAP ends in one of the shared operations, perhaps after reads; a TRAP runs its service in the linked state. -/

namespace Sys2Proof.Safety

open Sys2Proof.Machine

/-- All that instruction `i`, run in `s`, leaves in `t`, in the tables of the spec. -/
structure Leaves (s : State) (i : Instr) (t : State) : Prop where
  /-- Only HALT clears the run bit (R29). -/
  running : t.running = if trapVector i = some 0x25#8 then false else s.running
  /-- The four causes (R202). -/
  fault : t.fault = s.fault ∨ (i = .rti ∧ t.fault = some .rtiNotImplemented) ∨
    (i = .res ∧ t.fault = some .reservedOpcode) ∨
    (∃ v, trapVector i = some v ∧ ¬ ServedVector v ∧ t.fault = some (.badTrapVector v)) ∨
    ((trapVector i = some 0x20#8 ∨ trapVector i = some 0x23#8) ∧ s.con.look.1 = none ∧
      t.fault = some .consoleEndOfInput)
  /-- What is left unfinished is what was, or nothing, or a service that has raised nothing, its trap entered (R216). -/
  unfinished : t.unfinished = s.unfinished ∨ t.unfinished = none ∨
    (t.running = s.running ∧ t.fault = s.fault ∧ t.getReg 7 = t.pc)
  /-- The table of R24. -/
  pc : t.pc = pcAfter s i
  /-- The table of R22. -/
  regs : RegsFrame s t (regsWritten i)
  /-- Every TRAP leaves its return address in R7 (R170). -/
  linked : (trapVector i).isSome → t.getReg 7 = s.pc
  /-- Only stores and polls change memory (R54, R55). -/
  mem : ∀ a, ¬ MayChange s i a → t.mem.read a = s.mem.read a
  wf : s.mem.wf → t.mem.wf
  con : Advances s.con t.con

/-- Where only the keyboard words can have changed, and those only by a poll, nothing has that may not. -/
theorem read_of_not_mayChange {s t : State} {i : Instr} (hkbd : MemFrame s t [Config.kbsr, Config.kbdr])
    (hmem : ¬ Polls s i → t.mem = s.mem) {a : Word} (ha : ¬ MayChange s i a) : t.mem.read a = s.mem.read a := by
  by_cases hp : Polls s i
  · refine hkbd a fun h => ha (.inr ⟨hp, ?_⟩)
    simpa only [List.mem_cons, List.not_mem_nil, or_false] using h
  · rw [hmem hp]

/-! ## Instructions that are no TRAP -/

/-- `r` is `s` after the reads that instruction `i` makes, if any. -/
structure HasRead (s : State) (i : Instr) (r : State) : Prop where
  scanned : Scanned s r
  unfinished : r.unfinished = s.unfinished
  mem : ¬ Polls s i → r.mem = s.mem

theorem HasRead.nothing (s : State) (i : Instr) : HasRead s i s where
  scanned := Scanned.refl s
  unfinished := rfl
  mem _ := rfl

/-- One more read, which is among the instruction's polls if it is of 0xFE00 (R51). -/
theorem HasRead.read {s r : State} {i : Instr} {a : Word} (h : HasRead s i r) (hp : a = Config.kbsr → Polls s i) :
    HasRead s i (r.memRead a).2 where
  scanned := h.scanned.trans (Scanned.read r a)
  unfinished := (r.afterRead_unfinished a).trans h.unfinished
  mem hn := by rw [State.memRead_of_ne (mt hp hn), h.mem hn]

theorem HasRead.mem_read {s r : State} {i : Instr} (h : HasRead s i r) {a : Word} (ha : ¬ MayChange s i a) :
    r.mem.read a = s.mem.read a :=
  read_of_not_mayChange h.scanned.mem h.mem ha

/-- An instruction that ends by writing its result (R28). -/
theorem Leaves.writeResult {s r : State} {i : Instr} (h : HasRead s i r) (dr : RegIdx) (v : Word)
    (htrap : trapVector i = none) (hpc : pcAfter s i = s.pc) (hregs : regsWritten i = [dr]) :
    Leaves s i (r.writeResult dr v) where
  running := by rw [htrap]; exact h.scanned.running
  fault := .inl h.scanned.fault
  unfinished := .inl h.unfinished
  pc := h.scanned.pc.trans hpc.symm
  regs j hj := by
    rw [hregs, List.mem_singleton] at hj
    rw [State.writeResult_getReg, if_neg hj, State.getReg_congr h.scanned.regs]
  linked hsome := by rw [htrap] at hsome; cases hsome
  mem a ha := h.mem_read ha
  wf := h.scanned.wf
  con := h.scanned.con

/-- An instruction that ends in a store (R54). -/
theorem Leaves.memWrite {s r : State} {i : Instr} (h : HasRead s i r) {a : Word} (v : Word)
    (htrap : trapVector i = none) (hpc : pcAfter s i = s.pc) (hstore : storeAddr s i = some a) :
    Leaves s i (r.memWrite a v) where
  running := by rw [htrap]; exact h.scanned.running
  fault := .inl h.scanned.fault
  unfinished := .inl h.unfinished
  pc := h.scanned.pc.trans hpc.symm
  regs j _ := State.getReg_congr h.scanned.regs j
  linked hsome := by rw [htrap] at hsome; cases hsome
  mem b hb := by
    have hba : b ≠ a := fun hba => hb (.inl (hba ▸ hstore))
    rw [State.memWrite_mem, Memory.read_write, if_neg hba, h.mem_read hb]
  wf hw := Memory.wf_write (h.scanned.wf hw) a v
  con := h.scanned.con

/-- An instruction that ends in a jump (R140), having written registers at most. -/
theorem Leaves.jump {s : State} {i : Instr} {rs : Vector Word 8} {a : Word} (htrap : trapVector i = none)
    (hpc : a = pcAfter s i) (hregs : RegsFrame s { s with regs := rs, pc := a } (regsWritten i)) :
    Leaves s i { s with regs := rs, pc := a } where
  running := by rw [htrap]; rfl
  fault := .inl rfl
  unfinished := .inl rfl
  pc := hpc
  regs := hregs
  linked hsome := by rw [htrap] at hsome; cases hsome
  mem _ _ := rfl
  wf := id
  con := Advances.refl _

/-- RTI and the reserved opcode (R181, R182). -/
theorem Leaves.raise {s : State} {i : Instr} {c : FaultCause} (htrap : trapVector i = none) (hpc : pcAfter s i = s.pc)
    (hc : i = .rti ∧ c = .rtiNotImplemented ∨ i = .res ∧ c = .reservedOpcode) : Leaves s i (s.raise c) where
  running := by rw [htrap]; rfl
  fault := by
    rcases hc with ⟨hi, rfl⟩ | ⟨hi, rfl⟩
    · exact .inr (.inl ⟨hi, rfl⟩)
    · exact .inr (.inr (.inl ⟨hi, rfl⟩))
  unfinished := .inl rfl
  pc := hpc.symm
  regs _ _ := rfl
  linked hsome := by rw [htrap] at hsome; cases hsome
  mem _ _ := rfl
  wf := id
  con := Advances.refl _

/-! ## TRAP, under its own name or a service's -/

theorem pcAfter_of_trapVector {i : Instr} {v : BitVec 8} (hv : trapVector i = some v) (s : State) :
    pcAfter s i = s.pc := by
  cases i with
  | getc | out | puts | inp | putsp | halt | trap => rfl
  | br | addReg | addImm | ld | st | jsrr | jsr | andReg | andImm | ldr | str | rti | not | ldi | sti | jmp | res | lea
  | ret => cases hv

theorem regsWritten_of_trapVector {i : Instr} {v : BitVec 8} (hv : trapVector i = some v) :
    regsWritten i = regsWritten (.trap v) := by
  cases i with
  | getc | out | puts | inp | putsp | halt | trap => obtain rfl := Option.some.inj hv; rfl
  | br | addReg | addImm | ld | st | jsrr | jsr | andReg | andImm | ldr | str | rti | not | ldi | sti | jmp | res | lea
  | ret => cases hv

/-- A TRAP polls under a service's name where it does under its own. -/
theorem polls_of_trapVector {i : Instr} {v : BitVec 8} (hv : trapVector i = some v) {s : State}
    (hp : v = trapPuts ∧ PutsPolls s ∨ v = trapPutsp ∧ PutspPolls s) : Polls s i := by
  cases i with
  | trap => obtain rfl := Option.some.inj hv; exact hp
  | puts => obtain rfl := Option.some.inj hv; exact hp.elim And.right fun h => absurd h.1 (by decide)
  | putsp => obtain rfl := Option.some.inj hv; exact hp.elim (fun h => absurd h.1 (by decide)) And.right
  | getc | out | inp | halt =>
    obtain rfl := Option.some.inj hv
    exact hp.elim (fun h => absurd h.1 (by decide)) fun h => absurd h.1 (by decide)
  | br | addReg | addImm | ld | st | jsrr | jsr | andReg | andImm | ldr | str | rti | not | ldi | sti | jmp | res | lea
  | ret => cases hv

theorem storeAddr_of_trapVector {i : Instr} {v : BitVec 8} (hv : trapVector i = some v) (s : State) :
    storeAddr s i = none := by
  cases i with
  | getc | out | puts | inp | putsp | halt | trap => rfl
  | br | addReg | addImm | ld | st | jsrr | jsr | andReg | andImm | ldr | str | rti | not | ldi | sti | jmp | res | lea
  | ret => cases hv

theorem trapVector_nameAlias (i : Instr) : trapVector (nameAlias i) = trapVector i := by
  cases i with
  | trap v =>
    rw [nameAlias]
    split_ifs <;> simp only [trapVector, *]
  | jmp =>
    rw [nameAlias]
    split <;> rfl
  | br | addReg | addImm | ld | st | jsrr | jsr | andReg | andImm | ldr | str | rti | not | ldi | sti | res | lea | ret
  | getc | out | puts | inp | putsp | halt => rfl

/-- A TRAP stores nothing, so it changes the keyboard words at most, and those by a poll. -/
theorem Leaves.memFrames_of_trapVector {s t : State} {i : Instr} {v : BitVec 8} (h : Leaves s i t)
    (hv : trapVector i = some v) : MemFrame s t [Config.kbsr, Config.kbdr] ∧ (¬ Polls s i → MemFrame s t []) := by
  have hstore (a : Word) : storeAddr s i ≠ some a := by rw [storeAddr_of_trapVector hv]; nofun
  refine ⟨fun a ha => h.mem a fun hm => ?_, fun hn a _ => h.mem a fun hm => ?_⟩
  · rcases hm with hst | ⟨-, hk⟩
    · exact hstore a hst
    · exact ha (by simpa only [List.mem_cons, List.not_mem_nil, or_false] using hk)
  · rcases hm with hst | ⟨hp, -⟩
    · exact hstore a hst
    · exact hn hp

/-- GETC, OUT, PUTS, IN and PUTSP, by what their service leaves of the linked state. -/
theorem ServedFrom.leaves {s t : State} {i : Instr} {v : BitVec 8} {ds : List RegIdx} (h : ServedFrom s.link t ds)
    (hv : trapVector i = some v) (hhalt : v ≠ 0x25#8) (hend : ds = [0] → v = 0x20#8 ∨ v = 0x23#8)
    (hregs : regsWritten (.trap v) = 7 :: ds) (h7 : 7 ∉ ds) (hmem : ¬ Polls s i → t.mem = s.mem) : Leaves s i t := by
  have hkbd : MemFrame s t [Config.kbsr, Config.kbdr] := h.mem
  obtain ⟨hlinked, hframe, -, -⟩ := h.trapEntered h7
  refine ⟨?running, ?fault, ?unfinished, h.pc.trans (pcAfter_of_trapVector hv s).symm, ?regs, fun _ => hlinked,
    fun a ha => read_of_not_mayChange hkbd hmem ha, h.wf, h.con⟩
  case running => rw [hv, if_neg fun he => hhalt (Option.some.inj he)]; exact h.running
  case fault =>
    rcases h.fault with hf | ⟨hlook, hf, -, hds⟩
    · exact .inl hf
    · refine .inr (.inr (.inr (.inr ⟨?_, hlook, hf⟩)))
      rw [hv, Option.some_inj, Option.some_inj]
      exact hend hds
  case unfinished =>
    rcases h.fault with hf | ⟨-, -, hu, -⟩
    · exact .inr (.inr ⟨h.running, hf, hlinked.trans h.pc.symm⟩)
    · exact .inr (.inl hu)
  case regs => rwa [regsWritten_of_trapVector hv, hregs]

theorem Leaves.halt {i : Instr} (hv : trapVector i = some trapHalt) (s : State) : Leaves s i s.link.serveHalt where
  running := (if_pos hv).symm
  fault := .inl rfl
  unfinished := .inl rfl
  pc := (pcAfter_of_trapVector hv s).symm
  regs := regsWritten_of_trapVector hv ▸ s.link_regsFrame []
  linked _ := s.link_getReg_seven
  mem _ _ := rfl
  wf := id
  con := Advances.refl _

/-- A TRAP with an unserved vector (R178). -/
theorem Leaves.badTrapVector {i : Instr} {v : BitVec 8} (hv : trapVector i = some v) (hns : ¬ ServedVector v)
    (s : State) : Leaves s i (s.link.raise (.badTrapVector v)) where
  running := by
    have hne : trapVector i ≠ some 0x25#8 := fun he => hns (Option.some.inj (hv.symm.trans he) ▸ by decide)
    rw [if_neg hne]; rfl
  fault := .inr (.inr (.inr (.inl ⟨v, hv, hns, rfl⟩)))
  unfinished := .inl rfl
  pc := (pcAfter_of_trapVector hv s).symm
  regs := by
    have hsome : ∀ u, ServedVector u → v ≠ u := fun u hu he => hns (he ▸ hu)
    rw [regsWritten_of_trapVector hv, regsWritten,
      if_neg (not_or.mpr ⟨hsome trapGetc (by decide), hsome trapIn (by decide)⟩)]
    exact s.link_regsFrame []
  linked _ := s.link_getReg_seven
  mem _ _ := rfl
  wf := id
  con := Advances.refl _

end Sys2Proof.Safety

namespace Sys2Proof.Machine

open Sys2Proof.Safety

/-- A service's name runs the TRAP with its vector (R101). -/
theorem exec_of_trapVector {i : Instr} {v : BitVec 8} (hv : trapVector i = some v) (s : State) :
    exec i s = execTrap v s := by
  cases i with
  | trap => obtain rfl := Option.some.inj hv; rfl
  | getc => obtain rfl := Option.some.inj hv; exact (execTrap_getc s).symm
  | out => obtain rfl := Option.some.inj hv; exact (execTrap_out s).symm
  | puts => obtain rfl := Option.some.inj hv; exact (execTrap_puts s).symm
  | inp => obtain rfl := Option.some.inj hv; exact (execTrap_in s).symm
  | putsp => obtain rfl := Option.some.inj hv; exact (execTrap_putsp s).symm
  | halt => obtain rfl := Option.some.inj hv; exact (execTrap_halt s).symm
  | br | addReg | addImm | ld | st | jsrr | jsr | andReg | andImm | ldr | str | rti | not | ldi | sti | jmp | res | lea
  | ret => cases hv

/-- An instruction with a second name is a JMP through R7 or a TRAP with a served vector (R101). -/
theorem exec_nameAlias (i : Instr) (s : State) : exec (nameAlias i) s = exec i s := by
  rcases hv : trapVector i with _ | v
  case some => rw [exec_of_trapVector ((trapVector_nameAlias i).trans hv), exec_of_trapVector hv]
  case none =>
    cases i with
    | jmp base =>
      rw [nameAlias]
      split
      · next h7 => rw [h7]; rfl
      · rfl
    | trap => cases hv
    | br | addReg | addImm | ld | st | jsrr | jsr | andReg | andImm | ldr | str | rti | not | ldi | sti | res | lea
    | ret | getc | out | puts | inp | putsp | halt => rfl

/-- Every TRAP, by its vector. -/
theorem execTrap_leaves {i : Instr} {v : BitVec 8} (hv : trapVector i = some v) (s : State) :
    ∃ t, execTrap v s = .next t ∧ Leaves s i t := by
  rcases execTrap_cases v s with ⟨rfl, he⟩ | ⟨rfl, he⟩ | ⟨rfl, he⟩ | ⟨rfl, he⟩ | ⟨rfl, he⟩ | ⟨rfl, he⟩ | ⟨hns, he⟩ <;>
    rw [he]
  · exact ⟨_, rfl, s.link_getc_servedFrom.leaves hv (by decide) (fun _ => .inl rfl) rfl (by decide)
      fun _ => s.link.blockingRead_mem .getc⟩
  · exact ⟨_, rfl, (ServedFrom.of_scanned (Scanned.put s.link _)).leaves hv (by decide) nofun rfl (by decide)
      fun _ => rfl⟩
  · exact ⟨_, rfl, (s.link_puts_servedFrom _).leaves hv (by decide) nofun rfl (by decide)
      fun hn => State.servePuts_mem fun hp => hn (polls_of_trapVector hv (.inl ⟨rfl, hp⟩))⟩
  · exact ⟨_, rfl, s.link_inp_servedFrom.leaves hv (by decide) (fun _ => .inr rfl) rfl (by decide)
      fun _ => (s.link.conPutAll Config.inPrompt).blockingRead_mem .inp⟩
  · exact ⟨_, rfl, (s.link_putsp_servedFrom _).leaves hv (by decide) nofun rfl (by decide)
      fun hn => State.servePutsp_mem fun hp => hn (polls_of_trapVector hv (.inr ⟨rfl, hp⟩))⟩
  · exact ⟨_, rfl, .halt hv s⟩
  · exact ⟨_, rfl, .badTrapVector hv hns s⟩

/-- Every instruction answers a next state, and all that it leaves there. -/
theorem exec_leaves (i : Instr) (s : State) : ∃ t, exec i s = .next t ∧ Leaves s i t := by
  cases i with
  | addReg | addImm | andReg | andImm | not | lea => exact ⟨_, rfl, .writeResult (.nothing s _) _ _ rfl rfl rfl⟩
  | ld | ldr => exact ⟨_, rfl, .writeResult ((HasRead.nothing s _).read id) _ _ rfl rfl rfl⟩
  | ldi => exact ⟨_, rfl, .writeResult (((HasRead.nothing s _).read Or.inl).read Or.inr) _ _ rfl rfl rfl⟩
  | st | str => exact ⟨_, rfl, .memWrite (.nothing s _) _ rfl rfl rfl⟩
  | sti => exact ⟨_, rfl, .memWrite ((HasRead.nothing s _).read id) _ rfl rfl rfl⟩
  | br nzp off => exact ⟨_, exec_br nzp off s, .jump rfl rfl fun _ _ => rfl⟩
  | jmp | ret => exact ⟨_, rfl, .jump rfl rfl fun _ _ => rfl⟩
  | jsr | jsrr => exact ⟨_, rfl, .jump rfl rfl (s.link_regsFrame [])⟩
  | rti => exact ⟨_, rfl, .raise rfl rfl (.inl ⟨rfl, rfl⟩)⟩
  | res => exact ⟨_, rfl, .raise rfl rfl (.inr ⟨rfl, rfl⟩)⟩
  | getc | out | puts | inp | putsp | halt | trap => rw [exec_of_trapVector rfl]; exact execTrap_leaves rfl s

/-- All that a next state of an instruction can be. -/
theorem leaves_of_exec {i : Instr} {s t : State} (h : exec i s = .next t) : Leaves s i t := by
  obtain ⟨u, hu, hl⟩ := exec_leaves i s
  obtain rfl := Host.Outcome.next.inj (hu.symm.trans h)
  exact hl

end Sys2Proof.Machine

open Sys2Proof Sys2Proof.Machine Sys2Proof.Safety

/-- Settles O38: no arm but HALT's writes the run bit. -/
theorem onlyHaltClearsRunBit : Obligations.OnlyHaltClearsRunBit := by
  unfold Obligations.OnlyHaltClearsRunBit
  exact fun i s t h => (leaves_of_exec h).running

/-- Settles O39: only `raise` writes the fault status, and each arm that raises names its own cause. -/
theorem onlyFourCausesFault : Obligations.OnlyFourCausesFault := by
  unfold Obligations.OnlyFourCausesFault
  exact fun i s t h => (leaves_of_exec h).fault

/-- Settles O41: each arm writes its DR, or links R7, and a service that reads a byte writes R0. -/
theorem registersWrittenByEachInstruction : Obligations.RegistersWrittenByEachInstruction := by
  unfold Obligations.RegistersWrittenByEachInstruction
  exact fun i s t h => (leaves_of_exec h).regs

/-- Settles O42: each arm ends in a store to its address or changes memory by its reads alone. -/
theorem onlyStoresWriteMemory : Obligations.OnlyStoresWriteMemory := by
  unfold Obligations.OnlyStoresWriteMemory
  exact fun i s t h => (leaves_of_exec h).mem

/-- Settles O40: the table is kept by every arm, and the three that always fault are arms that raise. -/
theorem pcAfterEachInstruction : Obligations.PcAfterEachInstruction := by
  unfold Obligations.PcAfterEachInstruction
  refine ⟨fun i s => ?pc, fun i s t hi h => ?faulted⟩
  case pc =>
    obtain ⟨t, ht, hl⟩ := exec_leaves i s
    exact ⟨t, ht, hl.pc⟩
  case faulted =>
    rcases hi with rfl | rfl | ⟨v, rfl, hv⟩
    · obtain rfl := Host.Outcome.next.inj h; rfl
    · obtain rfl := Host.Outcome.next.inj h; rfl
    · obtain rfl := Host.Outcome.next.inj ((execTrap_unserved hv s).symm.trans h); rfl

/-- Settles O43: a name runs what it names. -/
theorem aliasRunsAsItsCoreInstruction : Obligations.AliasRunsAsItsCoreInstruction := by
  unfold Obligations.AliasRunsAsItsCoreInstruction
  exact exec_nameAlias

/-- Settles O27: each served vector runs its service's arm, and what is not served raises after the link. -/
theorem trapDispatch : Obligations.TrapDispatch := by
  unfold Obligations.TrapDispatch
  refine ⟨fun w hop => ?decoding, fun v s => ?linked, fun s => ?served, fun v s hv => ?unserved⟩
  case decoding => exact decodeRow_of_trap hop
  case linked =>
    obtain ⟨t, ht, hl⟩ := exec_leaves (.trap v) s
    exact ⟨t, ht, hl.linked rfl⟩
  case served =>
    exact ⟨execTrap_getc s, execTrap_out s, execTrap_puts s, execTrap_in s, execTrap_putsp s, execTrap_halt s⟩
  case unserved =>
    exact ⟨_, execTrap_unserved hv s, s.link_getReg_seven, raises_of_link rfl rfl rfl rfl rfl rfl, rfl, rfl⟩

/-- Settles O36: PUTS and PUTSP can change the keyboard words, and only where their scan polls. -/
theorem servicesLeaveTheRestAlone : Obligations.ServicesLeaveTheRestAlone := by
  unfold Obligations.ServicesLeaveTheRestAlone
  intro i hi s
  have hservice : (∃ v, trapVector i = some v) ∧ flagDest i = none ∧
      regsWritten i = (if i = .getc ∨ i = .inp then [7, 0] else [7]) ∧
      (¬ (i = .puts ∨ i = .putsp) → ¬ Polls s i) := by
    simp only [List.mem_cons, List.not_mem_nil, or_false] at hi
    rcases hi with rfl | rfl | rfl | rfl | rfl | rfl <;> exact ⟨⟨_, rfl⟩, rfl, rfl, by simp [Polls]⟩
  obtain ⟨⟨v, hv⟩, hflag, hregs, hpolls⟩ := hservice
  obtain ⟨t, ht, hl⟩ := exec_leaves i s
  obtain ⟨hkbd, hmem⟩ := hl.memFrames_of_trapVector hv
  refine ⟨t, ht, hl.pc.trans (pcAfter_of_trapVector hv s), exec_cond_of_flagDest_none hflag ht, hregs ▸ hl.regs,
    hl.linked (by rw [hv]; rfl), ?mem, hmem⟩
  case mem =>
    by_cases hscan : i = .puts ∨ i = .putsp
    · rw [if_pos hscan]; exact hkbd
    · rw [if_neg hscan]; exact hmem (hpolls hscan)
end

section
/-! PROOFS. Steps and runs (spec/40_cycle.md R120 to R124): what a step can be, and what every step keeps. -/

namespace Sys2Proof.Machine

open Sys2Proof.Safety

/-! ## What a step can be -/

/-- In HALTED and in FAULTED the core is not RUNNING (R120). -/
theorem State.phase_of_stopped {s : State} (h : s.running = false ∨ s.fault.isSome = true) :
    s.phase = .halted ∨ s.phase = .faulted := by
  rw [State.phase]
  by_cases hf : s.fault.isSome = true
  · exact .inr (if_pos hf)
  · rw [if_neg hf, h.resolve_right hf]; exact .inl rfl

/-- A core that is not HALTED and not FAULTED is RUNNING (R120). -/
theorem State.stopped_or_running (s : State) :
    (s.running = false ∨ s.fault.isSome = true) ∨ (s.running = true ∧ s.fault = none) := by
  rcases hr : s.running with _ | _
  · exact .inl (.inl rfl)
  · rcases hf : s.fault with _ | c
    · exact .inr ⟨rfl, rfl⟩
    · exact .inl (.inr rfl)

/-- A stopped core answers itself (log entry 13). -/
theorem step_of_stopped {s : State} (h : s.running = false ∨ s.fault.isSome = true) : step s = .next s := by
  rcases State.phase_of_stopped h with hp | hp <;> simp only [step, advance, hp]

/-- Everything a step can be: nothing in a stopped core, an unfinished instruction taken up, or a cycle (R121). -/
theorem step_cases (s : State) :
    (step s = .next s ∧ (s.running = false ∨ s.fault.isSome = true)) ∨
    (s.running = true ∧ s.fault = none ∧ ∃ u, s.unfinished = some u ∧ step s = .next (s.goOn u)) ∨
    (s.running = true ∧ s.fault = none ∧ s.unfinished = none ∧
      step s = exec (decode (s.memRead s.pc).1) ((s.memRead s.pc).2.setPc (s.pc + 1))) := by
  rcases s.stopped_or_running with h | ⟨hr, hf⟩
  · exact .inl ⟨step_of_stopped h, h⟩
  · rcases hu : s.unfinished with _ | u
    · exact .inr (.inr ⟨hr, hf, rfl, (step_of_finished hr hf hu).trans (cycle_eq_exec s)⟩)
    · exact .inr (.inl ⟨hr, hf, u, rfl, step_of_unfinished hr hf hu⟩)

theorem step_answers (s : State) : ∃ t, step s = .next t := by
  rcases step_cases s with ⟨h, -⟩ | ⟨-, -, u, -, h⟩ | ⟨-, -, -, h⟩
  · exact ⟨_, h⟩
  · exact ⟨_, h⟩
  · obtain ⟨t, ht, -⟩ := exec_leaves (decode (s.memRead s.pc).1) ((s.memRead s.pc).2.setPc (s.pc + 1))
    exact ⟨t, h.trans ht⟩

/-- A run is built from steps: what holds of no step and is carried on by one more holds of a run of any length. -/
theorem run_induction {R : State → State → Prop} (hrefl : ∀ s, R s s)
    (hstep : ∀ s t u, step s = .next t → R t u → R s u) {k : Nat} {s t : State}
    (h : Sys2Proof.core.run k s = .next t) : R s t := by
  induction k generalizing s with
  | zero =>
    obtain rfl := Host.Outcome.next.inj h
    exact hrefl s
  | succ k ih =>
    obtain ⟨u, hu⟩ := step_answers s
    exact hstep s u t hu (ih ((run_succ k hu).symm.trans h))

theorem run_answers (k : Nat) (s : State) : ∃ t, Sys2Proof.core.run k s = .next t := by
  induction k generalizing s with
  | zero => exact ⟨s, rfl⟩
  | succ k ih =>
    obtain ⟨u, hu⟩ := step_answers s
    rw [run_succ k hu]
    exact ih u

theorem run_of_stopped {s : State} (h : s.running = false ∨ s.fault.isSome = true) (k : Nat) :
    Sys2Proof.core.run k s = .next s := by
  induction k with
  | zero => rfl
  | succ k ih => rw [run_succ k (step_of_stopped h), ih]

/-- The host's run of a stopped core executes no cycle (R123). -/
theorem runFor_of_stopped {s : State} (h : s.running = false ∨ s.fault.isSome = true) (k : Nat) :
    runFor k s = s.runEnd := by
  cases k with
  | zero => rfl
  | succ k => rcases State.phase_of_stopped h with hp | hp <;> rw [runFor, hp]

/-- The host's run of a running core is a step and then the run of what that leaves (R123). -/
theorem runFor_succ {s t : State} (hr : s.running = true) (hf : s.fault = none) (h : step s = .next t) (k : Nat) :
    runFor (k + 1) s = runFor k t := by
  have hphase : s.phase = .running := by rw [State.phase, hf, hr]; rfl
  have hadvance : advance s = .next t := h
  rw [runFor, hphase]
  simp only [hadvance]

/-! ## What every step keeps -/

/-- The invariant after a service, in whatever it leaves unfinished. -/
theorem consistent_of_servedFrom {s t : State} {ds : List RegIdx} (h : ServedFrom s t ds) (h7 : 7 ∉ ds)
    (hw : s.mem.wf) (hr : s.running = true) (hf : s.fault = none) (hlinked : s.getReg 7 = s.pc) : Consistent t := by
  have hrun : t.running = true := h.running.trans hr
  refine ⟨h.wf hw, fun hu => ?unfinished, fun c hc => ⟨hrun, ?record⟩⟩
  case unfinished =>
    rcases h.fault with hf' | ⟨-, -, hu', -⟩
    · exact ⟨hrun, hf'.trans hf, (h.regs 7 h7).trans (hlinked.trans h.pc.symm)⟩
    · rw [hu'] at hu; cases hu
  case record =>
    rcases h.fault with hf' | ⟨-, hc', -, -⟩
    · cases hc.symm.trans (hf'.trans hf)
    · obtain rfl := Option.some.inj (hc.symm.trans hc')
      exact trivial

/-- The invariant after an instruction that a running, unfaulted core has fetched. -/
theorem consistent_of_leaves {s t : State} {i : Instr} (h : Leaves s i t) (hw : s.mem.wf) (hr : s.running = true)
    (hf : s.fault = none) (hu : s.unfinished = none) : Consistent t := by
  refine ⟨h.wf hw, fun hunf => ?unfinished, fun c hc => ?fault⟩
  case unfinished =>
    rcases h.unfinished with hu' | hu' | ⟨hrun, hfault, hlinked⟩
    · rw [hu', hu] at hunf; cases hunf
    · rw [hu'] at hunf; cases hunf
    · exact ⟨hrun.trans hr, hfault.trans hf, hlinked⟩
  case fault =>
    have hrun (hne : trapVector i ≠ some 0x25#8) : t.running = true := h.running.trans ((if_neg hne).trans hr)
    rcases h.fault with hf' | ⟨rfl, hc'⟩ | ⟨rfl, hc'⟩ | ⟨v, hv, hns, hc'⟩ | ⟨hv, -, hc'⟩
    · cases hc.symm.trans (hf'.trans hf)
    · obtain rfl := Option.some.inj (hc.symm.trans hc')
      exact ⟨hrun nofun, trivial⟩
    · obtain rfl := Option.some.inj (hc.symm.trans hc')
      exact ⟨hrun nofun, trivial⟩
    · obtain rfl := Option.some.inj (hc.symm.trans hc')
      exact ⟨hrun fun he => hns (Option.some.inj (hv.symm.trans he) ▸ by decide), hns⟩
    · obtain rfl := Option.some.inj (hc.symm.trans hc')
      exact ⟨hrun fun he => by rw [he] at hv; revert hv; decide, trivial⟩

/-- The console only goes forward in an instruction taken up again (R216). -/
theorem State.goOn_advances (s : State) (u : Unfinished) : Advances s.con (s.goOn u).con := by
  obtain ⟨ds, -, h⟩ := s.goOn_servedFrom u
  exact h.con

theorem step_advances {s t : State} (h : step s = .next t) : Advances s.con t.con := by
  rcases step_cases s with ⟨hs, -⟩ | ⟨-, -, u, -, hs⟩ | ⟨-, -, -, hs⟩
  · obtain rfl := Host.Outcome.next.inj (hs.symm.trans h)
    exact Advances.refl _
  · obtain rfl := Host.Outcome.next.inj (hs.symm.trans h)
    exact s.goOn_advances u
  · exact (s.afterRead_advances s.pc).1.trans (leaves_of_exec (hs.symm.trans h)).con

end Sys2Proof.Machine

open Sys2Proof Sys2Proof.Machine Sys2Proof.Safety

/-- Settles O49: by what a step can be. A service taken up again keeps R7 and PC; an instruction that leaves one
unfinished has raised nothing and linked R7; and whatever raises is not HALT. -/
theorem stepKeepsInvariant : Obligations.StepKeepsInvariant := by
  unfold Obligations.StepKeepsInvariant
  intro s t hs h
  rcases step_cases s with ⟨hstep, -⟩ | ⟨hr, hf, u, hu, hstep⟩ | ⟨hr, hf, hu, hstep⟩
  case inl =>
    obtain rfl := Host.Outcome.next.inj (hstep.symm.trans h)
    exact hs
  case inr.inl =>
    obtain rfl := Host.Outcome.next.inj (hstep.symm.trans h)
    obtain ⟨ds, h7, hserved⟩ := s.goOn_servedFrom u
    obtain ⟨-, -, hlinked⟩ := hs.unfinished (by rw [hu]; rfl)
    exact consistent_of_servedFrom hserved h7 hs.mem hr hf hlinked
  case inr.inr =>
    exact consistent_of_leaves (leaves_of_exec (hstep.symm.trans h)) (State.afterRead_wf hs.mem s.pc)
      ((s.afterRead_running s.pc).trans hr) ((s.afterRead_fault s.pc).trans hf) ((s.afterRead_unfinished s.pc).trans hu)

/-- Settles O50: memory is empty, nothing is unfinished and nothing has faulted. -/
theorem resetMeetsInvariant : Obligations.ResetMeetsInvariant := by
  unfold Obligations.ResetMeetsInvariant
  exact ⟨State.reset_mem_wf, nofun, nofun⟩

/-- Settles O52: each kind of step goes forward, and going forward composes over a run. -/
theorem consoleStreamsOnlyAdvance : Obligations.ConsoleStreamsOnlyAdvance := by
  unfold Obligations.ConsoleStreamsOnlyAdvance
  refine ⟨fun s t h => step_advances h, fun k s t h => ?run⟩
  case run =>
    exact run_induction (R := fun s t => Advances s.con t.con) (fun s => Advances.refl _)
      (fun s t u hst htu => (step_advances hst).trans htu) h

/-- Settles O46: each kind of step answers, and so a run of any length does. -/
theorem everyStepAnswersNextState : Obligations.EveryStepAnswersNextState := by
  unfold Obligations.EveryStepAnswersNextState
  refine ⟨fun i s => ?exec, step_answers, run_answers⟩
  case exec =>
    obtain ⟨t, ht, -⟩ := exec_leaves i s
    exact ⟨t, ht⟩

/-- Settles O47: the core's phase is not RUNNING, and stays so because the state stays. -/
theorem stoppedCoreStaysStopped : Obligations.StoppedCoreStaysStopped := by
  unfold Obligations.StoppedCoreStaysStopped
  exact fun s h => ⟨step_of_stopped h, fun k => ⟨run_of_stopped h k, runFor_of_stopped h k⟩⟩

end

section
/-! PROOFS. Runs of an unfinished instruction, and the run that ends at HALT (spec/40_cycle.md R124, R125;
spec/20_memory.md R67). -/

namespace Sys2Proof.Machine

open Sys2Proof.Safety

/-! ## A wait for the console (R67) -/

/-- A waiting core at a quiet moment only takes that moment. -/
theorem step_of_reading_quiet {s : State} {r : BlockedRead} (hr : s.running = true) (hf : s.fault = none)
    (hu : s.unfinished = some (.reading r)) (hlook : s.con.look.1 = some .quiet) :
    step s = .next (s.setCon s.con.look.2) := by
  rw [step_of_unfinished hr hf hu, State.goOn, State.blockingRead_of_quiet r hlook, ← hu]; rfl

/-- A waiting core that is offered a byte delivers it. -/
theorem step_of_reading_byte {s : State} {r : BlockedRead} {c : Byte} (hr : s.running = true) (hf : s.fault = none)
    (hu : s.unfinished = some (.reading r)) (hlook : s.con.look.1 = some (.byte c)) :
    step s = .next (((s.setCon s.con.look.2).setUnfinished none).deliver r c) := by
  rw [step_of_unfinished hr hf hu, State.goOn, State.blockingRead_of_byte r hlook]

/-- A waiting core at the end of the input raises. -/
theorem step_of_reading_end {s : State} {r : BlockedRead} (hr : s.running = true) (hf : s.fault = none)
    (hu : s.unfinished = some (.reading r)) (hlook : s.con.look.1 = none) :
    step s = .next (((s.setCon s.con.look.2).setUnfinished none).raise .consoleEndOfInput) := by
  rw [step_of_unfinished hr hf hu, State.goOn, State.blockingRead_of_end r hlook]

/-- Over any number of quiet moments a waiting core takes them one by one, and then delivers the byte. -/
theorem run_of_reading {s : State} {r : BlockedRead} {n : Nat} {c : Byte} {rest : List ConEvent}
    (hr : s.running = true) (hf : s.fault = none) (hu : s.unfinished = some (.reading r))
    (hin : s.con.input = List.replicate n .quiet ++ .byte c :: rest) :
    Sys2Proof.core.run (n + 1) s =
      .next (((s.setCon { s.con with input := rest }).setUnfinished none).deliver r c) := by
  induction n generalizing s with
  | zero =>
    have hlook := Console.look_cons hin
    have hstep := step_of_reading_byte hr hf hu (congrArg Prod.fst hlook)
    rw [hlook] at hstep
    exact run_succ 0 hstep
  | succ n ih =>
    have hlook := Console.look_cons hin
    have hstep := step_of_reading_quiet hr hf hu (congrArg Prod.fst hlook)
    rw [hlook] at hstep
    rw [run_succ (n + 1) hstep]
    exact ih hr hf hu rfl

/-- What a delivered byte leaves (R172, R175): R0, for IN the echo, and nothing else. -/
theorem State.deliver_leaves (s : State) (d : Console) (r : BlockedRead) (c : Byte) :
    let t := ((s.setCon d).setUnfinished none).deliver r c
    t.getReg 0 = zext c ∧ RegsFrame s t [0] ∧ t.pc = s.pc ∧ t.cond = s.cond ∧ MemFrame s t [] ∧
      t.con = { d with output := d.output ++ (if r = .inp then [c] else []) } ∧ t.running = s.running ∧
      t.fault = s.fault ∧ t.unfinished = none := by
  intro t
  have ht : t = (((s.setCon d).setUnfinished none).conPutAll (if r = .inp then [c] else [])).setReg 0 (zext c) := by
    cases r <;> exact State.deliver_eq _ _ c
  rw [ht]
  refine ⟨State.setReg_getReg _ 0 _ 0, fun i hi => ?_, rfl, rfl, memFrame_of_mem rfl _, rfl, rfl, rfl, rfl⟩
  rw [State.setReg_getReg, if_neg (mt List.mem_singleton.mpr hi)]; rfl

/-! ## A scan without end (R125 d, R250) -/

/-- Every word of memory but the keyboard status word is one that PUTS goes past. -/
def NoZeroWord (m : Memory) : Prop :=
  ∀ x, x ≠ Config.kbsr → m.read x ≠ 0x0000#16

/-- The status word of a poll that finds a byte has bit 15 set (R51). -/
theorem or_kbsrReady_bit15 (w : Word) : (w ||| Config.kbsrReady).getLsbD 15 = true := by
  have hready : Config.kbsrReady.getLsbD 15 = true := by decide
  rw [BitVec.getLsbD_or, hready, Bool.or_true]

theorem or_kbsrReady_ne_zero (w : Word) : w ||| Config.kbsrReady ≠ 0x0000#16 := by
  intro h
  have h15 := or_kbsrReady_bit15 w
  rw [h] at h15
  cases h15

theorem zext_ne_zero {b : Byte} (hb : b ≠ 0x00#8) : zext b ≠ 0x0000#16 := by
  intro h
  have hlow := congrArg lowByte h
  rw [Laws.lowByte_zext] at hlow
  exact hb hlow

/-- A poll that finds a byte that is not 0 leaves no zero word behind (R51). -/
theorem NoZeroWord.afterRead_kbsr {s : State} {b : Byte} (h : NoZeroWord s.mem) (hb : b ≠ 0x00#8)
    (hoffer : offeredByte s.con.look.1 = some b) : NoZeroWord (s.afterRead Config.kbsr).mem := by
  intro x hx
  have hread : (s.afterRead Config.kbsr).mem.read x = if x = Config.kbdr then zext b else s.mem.read x := by
    rw [← State.memRead_snd, State.memRead_kbsr_byte hoffer]
    simp only [State.memWrite_mem, State.setCon_mem, Memory.read_write, if_neg hx]; rfl
  rw [hread]
  split
  · exact zext_ne_zero hb
  · exact h x hx

/-- One step of such a scan, `n` words before 0xFE00, takes the one byte of its poll and is left past it. -/
theorem putsScan_endless {n : Nat} {s : State} {a : Word} {b : Byte} {rest : List ConEvent}
    (hn : (Config.kbsr - a).toNat = n) (hm : NoZeroWord s.mem) (hb : b ≠ 0x00#8)
    (hin : s.con.input = .byte b :: rest) :
    (putsScan (n + 1) s a).unfinished = some (.puts 0xFE01#16) ∧ (putsScan (n + 1) s a).con.input = rest ∧
      NoZeroWord (putsScan (n + 1) s a).mem := by
  induction n generalizing s a with
  | zero =>
    obtain rfl : a = Config.kbsr := by bv_omega
    have hlook := Console.look_cons hin
    have hoffer : offeredByte s.con.look.1 = some b := by rw [hlook]; rfl
    have hword : (s.memRead Config.kbsr).1 ≠ 0x0000#16 := by
      rw [State.memRead_kbsr_byte hoffer]; exact or_kbsrReady_ne_zero _
    rw [putsScan, if_neg hword, putsScan]
    refine ⟨rfl, ?input, hm.afterRead_kbsr hb hoffer⟩
    case input =>
      have hcon : (s.afterRead Config.kbsr).con.input = rest := by rw [State.afterRead_con, if_pos rfl, hlook]
      exact hcon
  | succ n ih =>
    have ha : a ≠ Config.kbsr := by rintro rfl; simp at hn
    rw [putsScan, State.memRead_of_ne ha, if_neg (hm a ha)]
    exact ih (s := s.conPut _) (by bv_omega) hm hin

theorem step_of_puts_endless {s : State} {a : Word} {b : Byte} {rest : List ConEvent} (hr : s.running = true)
    (hf : s.fault = none) (hu : s.unfinished = some (.puts a)) (hm : NoZeroWord s.mem) (hb : b ≠ 0x00#8)
    (hin : s.con.input = .byte b :: rest) :
    ∃ t, step s = .next t ∧ t.running = true ∧ t.fault = none ∧ t.unfinished = some (.puts 0xFE01#16) ∧
      NoZeroWord t.mem ∧ t.con.input = rest := by
  have hscanned := putsStep_scanned (s.putsFrom_step a)
  obtain ⟨hunf, hinput, hmem⟩ := putsScan_endless (s := s) (a := a) rfl hm hb hin
  exact ⟨_, step_of_unfinished hr hf hu, hscanned.running.trans hr, hscanned.fault.trans hf, hunf, hmem, hinput⟩

/-- A PUTS whose every poll finds a byte is unfinished after any number of steps. -/
theorem run_of_puts_endless {k : Nat} {s : State} {a : Word} {b : Byte} {rest : List ConEvent}
    (hr : s.running = true) (hf : s.fault = none) (hu : s.unfinished = some (.puts a)) (hm : NoZeroWord s.mem)
    (hb : b ≠ 0x00#8) (hin : s.con.input = List.replicate (k + 1) (.byte b) ++ rest) :
    ∃ t, Sys2Proof.core.run (k + 1) s = .next t ∧ t.unfinished = some (.puts 0xFE01#16) ∧ t.running = true ∧
      t.fault = none ∧ t.con.input = rest := by
  induction k generalizing s a with
  | zero =>
    obtain ⟨t, hstep, hr', hf', hu', -, hin'⟩ := step_of_puts_endless hr hf hu hm hb hin
    exact ⟨t, run_succ 0 hstep, hu', hr', hf', hin'⟩
  | succ k ih =>
    obtain ⟨t, hstep, hr', hf', hu', hm', hin'⟩ := step_of_puts_endless hr hf hu hm hb hin
    rw [run_succ (k + 1) hstep]
    exact ih hr' hf' hu' hm' hin'

/-! ## The word that ends a run (R124) -/

/-- Between cycles the host has its move (R242). -/
theorem State.byHost_of_finished {α : Type} {s : State} (hu : s.unfinished = none) (act : State → α) :
    s.byHost act = some (act s) := by
  have hact : s.hostMayAct = true := by rw [State.hostMayAct, hu]; rfl
  rw [State.byHost, if_pos hact]

theorem decode_halt {w : Word} (hop : opcodeOf (w.extractLsb' 12 4) = .trap) (hv : w.extractLsb' 0 8 = 0x25#8) :
    decode w = .halt := by
  rw [decode, decodeRow_of_trap hop, hv]; decide

/-- One step at a HALT word: the core is HALTED, with R7 and PC past it. -/
theorem step_of_halt_word {s : State} (hr : s.running = true) (hf : s.fault = none) (hu : s.unfinished = none)
    (hpc : s.pc ≠ Config.kbsr) (hw : decode (s.mem.read s.pc) = .halt) :
    step s = .next (s.setPc (s.pc + 1)).link.serveHalt := by
  rw [step_of_finished hr hf hu, cycle_eq_exec, State.memRead_of_ne hpc, hw, exec_halt]

end Sys2Proof.Machine

open Sys2Proof Sys2Proof.Machine Sys2Proof.Safety

/-- Settles O45: a waiting core's step is a blocking read, at the moment a look finds. -/
theorem blockedReadWaitsForConsole : Obligations.BlockedReadWaitsForConsole := by
  unfold Obligations.BlockedReadWaitsForConsole
  refine ⟨fun s r hr hf hu hlook => ?quiet, fun s r n c rest hr hf hu hin => ?run, fun s r c hr hf hu hlook => ?byte,
    fun s r hr hf hu hlook => ?ended⟩
  case quiet => exact step_of_reading_quiet hr hf hu hlook
  case run =>
    refine ⟨_, run_of_reading hr hf hu hin, ?_⟩
    simpa only [hr, hf] using s.deliver_leaves { s.con with input := rest } r c
  case byte =>
    refine ⟨_, step_of_reading_byte hr hf hu hlook, ?_⟩
    simpa only [hr, hf, s.con.look_advances.2] using s.deliver_leaves s.con.look.2 r c
  case ended =>
    exact ⟨_, step_of_reading_end hr hf hu hlook, ⟨rfl, rfl, regsFrame_of_regs rfl _, rfl, rfl, memFrame_of_mem rfl _⟩,
      rfl, rfl⟩

/-- Settles O53: the step of an unfinished scan is the scan from where it stands; one that no poll ends takes a byte at
each step and is left where it was. -/
theorem unfinishedScanGoesOn : Obligations.UnfinishedScanGoesOn := by
  unfold Obligations.UnfinishedScanGoesOn
  refine ⟨fun s a hr hf hu => ?puts, fun s a hr hf hu => ?putsp, fun s a k b rest hr hf hu hm hb hin => ?endless⟩
  case puts =>
    have hloop := s.putsFrom_step a
    have h := putsStep_scanned hloop
    exact ⟨_, step_of_unfinished hr hf hu, hloop, regsFrame_of_regs h.regs _, h.pc, h.cond, h.mem, h.running.trans hr,
      h.fault.trans hf⟩
  case putsp =>
    have hloop := s.putspFrom_step a
    have h := putspStep_scanned hloop
    exact ⟨_, step_of_unfinished hr hf hu, hloop, regsFrame_of_regs h.regs _, h.pc, h.cond, h.mem, h.running.trans hr,
      h.fault.trans hf⟩
  case endless => exact run_of_puts_endless hr hf hu hm hb hin

/-- Settles O48: the first step halts the core, and the run then returns what it left. -/
theorem haltWordEndsRun : Obligations.HaltWordEndsRun := by
  unfold Obligations.HaltWordEndsRun
  intro s k hr hf hu hpc hop hv
  have hstep := step_of_halt_word hr hf hu hpc (decode_halt hop hv)
  have hrun : s.run (k + 1) = some (.returned (s.setPc (s.pc + 1)).link.serveHalt) := by
    rw [State.run, State.byHost_of_finished hu, runFor_succ hr hf hstep, runFor_of_stopped (.inl rfl), State.runEnd,
      State.serveHalt_fault, State.link_fault, State.setPc_fault, hf]
    rfl
  exact ⟨_, hrun, ⟨rfl, hf⟩, rfl, State.link_getReg_seven _, (s.setPc (s.pc + 1)).link_regsFrame [], rfl,
    memFrame_of_mem rfl _, rfl⟩
end

section
/-! PROOFS. The decoder and the encoder (spec/30_encoding.md R90 to R103): a field is read back from the word it was
placed in, so each row's encoding decodes to the row's instruction. -/

namespace Sys2Proof

open Sys2Proof.Laws

theorem namedForm (i : Instr) : NamedForm.Statement i := by
  cases i with
  | jmp base => exact NamedForm.jmp base
  | trap v => exact NamedForm.trap v
  | br | addReg | addImm | ld | st | jsrr | jsr | andReg | andImm | ldr | str | rti | not | ldi | sti | res | lea | ret
  | getc | out | puts | inp | putsp | halt => exact ⟨rfl, rfl⟩

theorem wellFormed_decode (w : Word) : WellFormed (decode w) = true := by
  obtain ⟨hwf, -⟩ := namedForm (decodeRow w)
  exact hwf

theorem rowOf_decode (w : Word) : rowOf (decode w) = rowOf (decodeRow w) := by
  obtain ⟨-, hrow⟩ := namedForm (decodeRow w)
  exact hrow

/-- A well-formed instruction is its own name (R101). -/
theorem nameAlias_of_wellFormed {i : Instr} (h : WellFormed i = true) : nameAlias i = i := by
  cases i with
  | jmp base => exact if_neg (of_decide_eq_true h)
  | trap v =>
    have hns : ¬ ServedVector v := of_decide_eq_true h
    have hne : ∀ u, ServedVector u → v ≠ u := fun u hu he => hns (he ▸ hu)
    rw [nameAlias, if_neg (hne _ (by decide)), if_neg (hne _ (by decide)), if_neg (hne _ (by decide)),
      if_neg (hne _ (by decide)), if_neg (hne _ (by decide)), if_neg (hne _ (by decide))]
  | br | addReg | addImm | ld | st | jsrr | jsr | andReg | andImm | ldr | str | rti | not | ldi | sti | res | lea | ret
  | getc | out | puts | inp | putsp | halt => rfl

theorem decodeRow_of_rti {w : Word} (hop : opcodeOf (w.extractLsb' 12 4) = .rti) : decodeRow w = .rti := by
  rw [decodeRow, hop]

theorem decodeRow_of_reserved {w : Word} (hop : opcodeOf (w.extractLsb' 12 4) = .reserved) : decodeRow w = .res := by
  rw [decodeRow, hop]

/-! ## The fields of an encoded instruction -/

theorem opcodeField (i : Instr) : OpcodeField.Statement i := by
  cases i with
  | br => exact OpcodeField.br _ _
  | addReg => exact OpcodeField.addReg _ _ _
  | addImm => exact OpcodeField.addImm _ _ _
  | ld => exact OpcodeField.ld _ _
  | st => exact OpcodeField.st _ _
  | jsrr => exact OpcodeField.jsrr _
  | jsr => exact OpcodeField.jsr _
  | andReg => exact OpcodeField.andReg _ _ _
  | andImm => exact OpcodeField.andImm _ _ _
  | ldr => exact OpcodeField.ldr _ _ _
  | str => exact OpcodeField.str _ _ _
  | rti => exact OpcodeField.rti
  | not => exact OpcodeField.not _ _
  | ldi => exact OpcodeField.ldi _ _
  | sti => exact OpcodeField.sti _ _
  | jmp => exact OpcodeField.jmp _
  | res => exact OpcodeField.res
  | lea => exact OpcodeField.lea _ _
  | trap => exact OpcodeField.trap _
  | ret => exact OpcodeField.ret
  | getc => exact OpcodeField.getc
  | out => exact OpcodeField.out
  | puts => exact OpcodeField.puts
  | inp => exact OpcodeField.inp
  | putsp => exact OpcodeField.putsp
  | halt => exact OpcodeField.halt

theorem opcodeOf_encode (i : Instr) : opcodeOf ((encode i).extractLsb' 12 4) = opcodeOfInstr i := by
  rw [opcodeField i, opcodeOf_opcodeValue]

/-- A bit that splits an opcode is a field of one bit (R91). -/
theorem getLsbD_eq_extractLsb' (w : Word) (k : Nat) : w.getLsbD k = (w.extractLsb' k 1).getLsbD 0 := by
  rw [BitVec.getLsbD_extractLsb', decide_eq_true Nat.one_pos, Bool.true_and, Nat.add_zero]

/-- Each row reads back the fields it was encoded from: the opcode first, then the bit that splits it, where one does,
then the operands. -/
theorem decode_encode (i : Instr) : decode (encode i) = nameAlias i := by
  have htrap (v : BitVec 8) : decode (encode (.trap v)) = nameAlias (.trap v) := by
    rw [decode, decodeRow_of_trap (opcodeOf_encode (.trap v))]
    simp (disch := omega) only [encode, BitVec.extractLsb'_or, field_extract_self, field_extract_other, BitVec.zero_or]
  have hjmp (base : RegIdx) : decode (encode (.jmp base)) = nameAlias (.jmp base) := by
    rw [decode, decodeRow_of_jmp (opcodeOf_encode (.jmp base))]
    simp (disch := omega) only [encode, BitVec.extractLsb'_or, field_extract_self, field_extract_other, BitVec.zero_or]
  cases i with
  | trap v => exact htrap v
  | jmp base => exact hjmp base
  | ret => exact (hjmp 7).trans (by decide)
  | getc => exact htrap trapGetc
  | out => exact htrap trapOut
  | puts => exact htrap trapPuts
  | inp => exact htrap trapIn
  | putsp => exact htrap trapPutsp
  | halt => exact htrap trapHalt
  | br | ld | st | ldr | str | not | ldi | sti | lea =>
    rw [decode, decodeRow, opcodeOf_encode]
    simp (disch := omega) only [opcodeOfInstr, encode, BitVec.extractLsb'_or, field_extract_self,
      field_extract_other, BitVec.zero_or, BitVec.or_zero]
  | addReg | addImm | andReg | andImm | jsr | jsrr =>
    rw [decode, decodeRow, opcodeOf_encode]
    simp (disch := omega) only [opcodeOfInstr, encode, getLsbD_eq_extractLsb', BitVec.extractLsb'_or,
      field_extract_self, field_extract_other, BitVec.zero_or, BitVec.or_zero]
    rfl
  | rti | res => rw [decode, decodeRow, opcodeOf_encode]; rfl

/-! ## The bits the hardware examines (R94) -/

/-- Words that agree on a mask agree on every field inside it. -/
theorem extractLsb'_eq_of_and_eq {w w' m : Word} (h : w &&& m = w' &&& m) (lo len : Nat)
    (hm : m.extractLsb' lo len = BitVec.allOnes len) : w'.extractLsb' lo len = w.extractLsb' lo len := by
  have hfield := congrArg (BitVec.extractLsb' lo len) h
  rw [BitVec.extractLsb'_and, BitVec.extractLsb'_and, hm, BitVec.and_allOnes, BitVec.and_allOnes] at hfield
  exact hfield.symm

/-- A field read from a word and placed back is the word under the field's mask. -/
theorem field_extractLsb' (w : Word) (lo len : Nat) :
    field (w.extractLsb' lo len) lo = w &&& field (BitVec.allOnes len) lo := by
  apply BitVec.eq_of_getLsbD_eq
  intro k hk
  rw [BitVec.getLsbD_and, field_getLsbD _ _ _ hk, field_getLsbD _ _ _ hk, BitVec.getLsbD_extractLsb',
    BitVec.getLsbD_allOnes]
  by_cases hlo : lo ≤ k
  · rw [decide_eq_true hlo, Nat.add_sub_cancel' hlo, Bool.true_and, Bool.true_and, Bool.and_comm]
  · rw [decide_eq_false hlo, Bool.false_and, Bool.false_and, Bool.and_false]

/-- The opcode is examined in every row. -/
theorem examinedBits_opcode (r : RowName) : (examinedBits r).extractLsb' 12 4 = BitVec.allOnes 4 := by
  cases r <;> decide

theorem encode_nameAlias (i : Instr) : encode (nameAlias i) = encode i := by
  cases i with
  | trap v =>
    rw [nameAlias]
    split_ifs <;> simp only [encode, *]
  | jmp =>
    rw [nameAlias]
    split <;> simp only [encode, *]
  | br | addReg | addImm | ld | st | jsrr | jsr | andReg | andImm | ldr | str | rti | not | ldi | sti | res | lea | ret
  | getc | out | puts | inp | putsp | halt => rfl

/-- The bit that splits an opcode is examined, so it is the same in both words. -/
theorem getLsbD_eq_of_and_eq {w w' m : Word} (h : w &&& m = w' &&& m) (k : Nat) (hm : m.extractLsb' k 1 = 1#1) :
    w'.getLsbD k = w.getLsbD k := by
  rw [getLsbD_eq_extractLsb' w', extractLsb'_eq_of_and_eq h k 1 hm, ← getLsbD_eq_extractLsb']

/-- A decoder row is read from its examined bits alone: in eleven rows those are all bits, and in the others they are
the fields that `decodeRow` reads. -/
theorem decodeRow_eq_of_examined {w w' : Word}
    (h : w &&& examinedBits (rowOf (decodeRow w)) = w' &&& examinedBits (rowOf (decodeRow w))) :
    decodeRow w' = decodeRow w := by
  have hop' := congrArg opcodeOf (extractLsb'_eq_of_and_eq h 12 4 (examinedBits_opcode _))
  have hall {i : Instr} (hrow : decodeRow w = i) (hm : examinedBits (rowOf i) = BitVec.allOnes 16) :
      decodeRow w' = decodeRow w := by
    rw [hrow, hm, BitVec.and_allOnes, BitVec.and_allOnes] at h
    rw [h]
  rcases hop : opcodeOf (w.extractLsb' 12 4) <;> rw [hop] at hop'
  case br => exact hall (decodeRow_of_br hop) rfl
  case ld => exact hall (decodeRow_of_ld hop) rfl
  case st => exact hall (decodeRow_of_st hop) rfl
  case ldr => exact hall (decodeRow_of_ldr hop) rfl
  case str => exact hall (decodeRow_of_str hop) rfl
  case ldi => exact hall (decodeRow_of_ldi hop) rfl
  case sti => exact hall (decodeRow_of_sti hop) rfl
  case lea => exact hall (decodeRow_of_lea hop) rfl
  case rti => rw [decodeRow_of_rti hop, decodeRow_of_rti hop']
  case reserved => rw [decodeRow_of_reserved hop, decodeRow_of_reserved hop']
  case not =>
    rw [decodeRow_of_not hop] at h ⊢
    rw [rowOf] at h
    rw [decodeRow_of_not hop', extractLsb'_eq_of_and_eq h 9 3 (by decide), extractLsb'_eq_of_and_eq h 6 3 (by decide)]
  case jmp =>
    rw [decodeRow_of_jmp hop] at h ⊢
    rw [rowOf] at h
    rw [decodeRow_of_jmp hop', extractLsb'_eq_of_and_eq h 6 3 (by decide)]
  case trap =>
    rw [decodeRow_of_trap hop] at h ⊢
    rw [rowOf] at h
    rw [decodeRow_of_trap hop', extractLsb'_eq_of_and_eq h 0 8 (by decide)]
  case jsr =>
    rcases h11 : w.getLsbD 11 with _ | _
    · rw [decodeRow_of_jsr hop, h11, if_neg Bool.false_ne_true] at h ⊢
      rw [rowOf] at h
      rw [decodeRow_of_jsr hop', getLsbD_eq_of_and_eq h 11 (by decide), h11, if_neg Bool.false_ne_true,
        extractLsb'_eq_of_and_eq h 6 3 (by decide)]
    · exact hall ((decodeRow_of_jsr hop).trans (if_pos h11)) rfl
  case add =>
    rcases h5 : w.getLsbD 5 with _ | _
    · rw [decodeRow_of_add hop, h5, if_neg Bool.false_ne_true] at h ⊢
      rw [rowOf] at h
      rw [decodeRow_of_add hop', getLsbD_eq_of_and_eq h 5 (by decide), h5, if_neg Bool.false_ne_true,
        extractLsb'_eq_of_and_eq h 9 3 (by decide), extractLsb'_eq_of_and_eq h 6 3 (by decide),
        extractLsb'_eq_of_and_eq h 0 3 (by decide)]
    · exact hall ((decodeRow_of_add hop).trans (if_pos h5)) rfl
  case and =>
    rcases h5 : w.getLsbD 5 with _ | _
    · rw [decodeRow_of_and hop, h5, if_neg Bool.false_ne_true] at h ⊢
      rw [rowOf] at h
      rw [decodeRow_of_and hop', getLsbD_eq_of_and_eq h 5 (by decide), h5, if_neg Bool.false_ne_true,
        extractLsb'_eq_of_and_eq h 9 3 (by decide), extractLsb'_eq_of_and_eq h 6 3 (by decide),
        extractLsb'_eq_of_and_eq h 0 3 (by decide)]
    · exact hall ((decodeRow_of_and hop).trans (if_pos h5)) rfl

theorem field_zero (n lo : Nat) : field 0#n lo = 0x0000#16 := by
  rw [field, BitVec.setWidth_zero, BitVec.zero_shiftLeft]

/-- In the forms without an immediate, and in JSRR, the bit that splits the opcode is 0 (R93). -/
theorem encode_addReg_bit (dr sr1 sr2 : RegIdx) : encode (.addReg dr sr1 sr2) =
    field (opcodeValue .add) 12 ||| field dr 9 ||| field sr1 6 ||| field 0#1 5 ||| field sr2 0 := by
  rw [field_zero, BitVec.or_zero]; rfl

theorem encode_andReg_bit (dr sr1 sr2 : RegIdx) : encode (.andReg dr sr1 sr2) =
    field (opcodeValue .and) 12 ||| field dr 9 ||| field sr1 6 ||| field 0#1 5 ||| field sr2 0 := by
  rw [field_zero, BitVec.or_zero]; rfl

theorem encode_jsrr_bit (base : RegIdx) :
    encode (.jsrr base) = field (opcodeValue .jsr) 12 ||| field 0#1 11 ||| field base 6 := by
  rw [field_zero, BitVec.or_zero]; rfl

/-- A bit as a field of one bit. -/
theorem ofBool_eq_extractLsb' {w : Word} {k : Nat} {b : Bool} (h : w.getLsbD k = b) :
    BitVec.ofBool b = w.extractLsb' k 1 := by
  apply BitVec.eq_of_getLsbD_eq
  intro i hi
  obtain rfl := Nat.lt_one_iff.mp hi
  rw [← getLsbD_eq_extractLsb', h, BitVec.getLsbD_ofBool, decide_eq_true rfl, Bool.true_and]

/-- The encoder gives back the examined bits: the fields that `decodeRow` reads from them are placed back, and so is
the bit that splits ADD, AND or JSR. -/
theorem encode_decodeRow_and_examined (w : Word) :
    encode (decodeRow w) &&& examinedBits (rowOf (decodeRow w)) = w &&& examinedBits (rowOf (decodeRow w)) := by
  have hval := opcodeValue_opcodeOf (w.extractLsb' 12 4)
  have hmask {x m : Word} (hx : x &&& m = m) : w &&& x &&& m = w &&& m := by rw [BitVec.and_assoc, hx]
  rcases hop : opcodeOf (w.extractLsb' 12 4) <;> rw [hop] at hval
  case br | ld | st | ldr | str | ldi | sti | lea | jmp | trap | rti | reserved =>
    simp only [decodeRow, hop, rowOf, encode, hval, field_extractLsb', ← BitVec.and_or_distrib_left]
    exact hmask (by decide)
  case not =>
    have hunexamined : field 0b111111#6 0 &&& examinedBits .not = 0x0000#16 := by decide
    rw [decodeRow_of_not hop, rowOf, encode, hval, BitVec.and_or_distrib_right, hunexamined, BitVec.or_zero]
    simp only [field_extractLsb', ← BitVec.and_or_distrib_left]
    exact hmask (by decide)
  case jsr =>
    rcases h11 : w.getLsbD 11 with _ | _
    · have hbit : 0#1 = w.extractLsb' 11 1 := ofBool_eq_extractLsb' h11
      rw [decodeRow_of_jsr hop, h11, if_neg Bool.false_ne_true, rowOf, encode_jsrr_bit, hval, hbit]
      simp only [field_extractLsb', ← BitVec.and_or_distrib_left]
      exact hmask (by decide)
    · have hbit : 1#1 = w.extractLsb' 11 1 := ofBool_eq_extractLsb' h11
      rw [decodeRow_of_jsr hop, if_pos h11, rowOf, encode, hval, hbit]
      simp only [field_extractLsb', ← BitVec.and_or_distrib_left]
      exact hmask (by decide)
  case add =>
    rcases h5 : w.getLsbD 5 with _ | _
    · have hbit : 0#1 = w.extractLsb' 5 1 := ofBool_eq_extractLsb' h5
      rw [decodeRow_of_add hop, h5, if_neg Bool.false_ne_true, rowOf, encode_addReg_bit, hval, hbit]
      simp only [field_extractLsb', ← BitVec.and_or_distrib_left]
      exact hmask (by decide)
    · have hbit : 1#1 = w.extractLsb' 5 1 := ofBool_eq_extractLsb' h5
      rw [decodeRow_of_add hop, if_pos h5, rowOf, encode, hval, hbit]
      simp only [field_extractLsb', ← BitVec.and_or_distrib_left]
      exact hmask (by decide)
  case and =>
    rcases h5 : w.getLsbD 5 with _ | _
    · have hbit : 0#1 = w.extractLsb' 5 1 := ofBool_eq_extractLsb' h5
      rw [decodeRow_of_and hop, h5, if_neg Bool.false_ne_true, rowOf, encode_andReg_bit, hval, hbit]
      simp only [field_extractLsb', ← BitVec.and_or_distrib_left]
      exact hmask (by decide)
    · have hbit : 1#1 = w.extractLsb' 5 1 := ofBool_eq_extractLsb' h5
      rw [decodeRow_of_and hop, if_pos h5, rowOf, encode, hval, hbit]
      simp only [field_extractLsb', ← BitVec.and_or_distrib_left]
      exact hmask (by decide)

/-! ## The decoder rows (R102, R103) -/

/-- The bits that some row's mask has: the opcode, and the two bits that split one. -/
def rowBits : Word := 0xF820#16

/-- The row of a word is read from those bits. -/
theorem rowOf_decodeRow_eq {w w' : Word} (h : w &&& rowBits = w' &&& rowBits) :
    rowOf (decodeRow w') = rowOf (decodeRow w) := by
  have hop := congrArg opcodeOf (extractLsb'_eq_of_and_eq h 12 4 (by decide))
  have h5 := getLsbD_eq_of_and_eq h 5 (by decide)
  have h11 := getLsbD_eq_of_and_eq h 11 (by decide)
  rw [decodeRow, decodeRow, hop]
  cases opcodeOf (w.extractLsb' 12 4)
  case add | and => rw [h5]; cases w.getLsbD 5 <;> rfl
  case jsr => rw [h11]; cases w.getLsbD 11 <;> rfl
  all_goals rfl

theorem and_rowBits_mask : ∀ r ∈ decoderRows, rowBits &&& r.mask = r.mask := by decide

/-- Those bits put together again, from their fields. -/
theorem and_rowBits_eq (w : Word) :
    w &&& rowBits =
      field (w.extractLsb' 12 4) 12 ||| field (w.extractLsb' 11 1) 11 ||| field (w.extractLsb' 5 1) 5 := by
  simp only [field_extractLsb', ← BitVec.and_or_distrib_left]
  exact congrArg (w &&& ·) (by decide)

/-- The table against the decoder, at the 64 words that have no other bit set. -/
theorem matches_iff_of_rowBits : ∀ (op : BitVec 4) (b11 b5 : BitVec 1), ∀ r ∈ decoderRows,
    ((field op 12 ||| field b11 11 ||| field b5 5) &&& r.mask = r.pattern ↔
      r.name = rowOf (decodeRow (field op 12 ||| field b11 11 ||| field b5 5))) := by
  decide +kernel

/-- A word matches a row iff the row has the name of the instruction it decodes to: neither side looks at any bit but
`rowBits`. -/
theorem matches_iff (w : Word) (r : DecoderRow) (hr : r ∈ decoderRows) :
    w &&& r.mask = r.pattern ↔ r.name = rowOf (decode w) := by
  have hidem : w &&& rowBits &&& rowBits = w &&& rowBits := by rw [BitVec.and_assoc, BitVec.and_self]
  have hmask : w &&& r.mask = w &&& rowBits &&& r.mask := by rw [BitVec.and_assoc, and_rowBits_mask r hr]
  rw [rowOf_decode, rowOf_decodeRow_eq hidem, hmask, and_rowBits_eq]
  exact matches_iff_of_rowBits _ _ _ r hr

/-- One row has each name. -/
theorem filter_name_decoderRows (n : RowName) :
    (decoderRows.filter (fun r => r.name = n)).map DecoderRow.name = [n] := by
  cases n <;> decide

/-! ## The words that always fail (R98) -/

/-- The decoder reads the operation from the opcode map (R96). -/
theorem opcodeOfInstr_decodeRow (w : Word) : opcodeOfInstr (decodeRow w) = opcodeOf (w.extractLsb' 12 4) := by
  rw [decodeRow]
  cases opcodeOf (w.extractLsb' 12 4)
  case add | and => cases w.getLsbD 5 <;> rfl
  case jsr => cases w.getLsbD 11 <;> rfl
  all_goals rfl

/-- A word of the operation has its opcode number. -/
theorem opcode_of_decodeRow {w : Word} {i : Instr} (h : decodeRow w = i) :
    w.extractLsb' 12 4 = opcodeValue (opcodeOfInstr i) := by
  rw [← h, opcodeOfInstr_decodeRow, opcodeValue_opcodeOf]

open Sys2Proof.Machine Sys2Proof.Safety

theorem opcodeOfInstr_of_trapVector {i : Instr} {v : BitVec 8} (hv : trapVector i = some v) :
    opcodeOfInstr i = .trap := by
  cases i with
  | getc | out | puts | inp | putsp | halt | trap => rfl
  | br | addReg | addImm | ld | st | jsrr | jsr | andReg | andImm | ldr | str | rti | not | ldi | sti | jmp | res | lea
  | ret => cases hv

/-- The row decoder reads a TRAP's vector from bits 7:0 (R170). -/
theorem trap_of_trapVector_decodeRow {w : Word} {v : BitVec 8} (hv : trapVector (decodeRow w) = some v) :
    w.extractLsb' 12 4 = 0b1111#4 ∧ w.extractLsb' 0 8 = v := by
  have hop : opcodeOf (w.extractLsb' 12 4) = .trap :=
    (opcodeOfInstr_decodeRow w).symm.trans (opcodeOfInstr_of_trapVector hv)
  have hval := opcode_of_decodeRow (decodeRow_of_trap hop)
  rw [decodeRow_of_trap hop] at hv
  exact ⟨hval, Option.some.inj hv⟩

theorem not_servedVector_iff (v : BitVec 8) : ¬ ServedVector v ↔ v < 0x20#8 ∨ 0x25#8 < v := by
  rw [not_and_or, BitVec.not_le, BitVec.not_le]

end Sys2Proof

open Sys2Proof Sys2Proof.Machine Sys2Proof.Safety

/-- Settles O54: the decoder names every row's instruction well-formed; decoding an encoding gives the instruction's name, which is what a well-formed one is. -/
theorem decodeEncodeRoundTrip : Obligations.DecodeEncodeRoundTrip := by
  unfold Obligations.DecodeEncodeRoundTrip
  exact ⟨wellFormed_decode, fun i hi => (decode_encode i).trans (nameAlias_of_wellFormed hi)⟩

/-- Settles O55: row by row, before the name is given. -/
theorem unexaminedBitsIgnored : Obligations.UnexaminedBitsIgnored := by
  unfold Obligations.UnexaminedBitsIgnored
  refine ⟨fun w w' h => ?decoding, fun w => ?encoding⟩
  case decoding =>
    rw [rowOf_decode] at h
    rw [decode, decode, decodeRow_eq_of_examined h]
  case encoding =>
    rw [rowOf_decode, decode, encode_nameAlias]
    exact encode_decodeRow_and_examined w

/-- Settles O56: each row of the table matches the words decoded under its name, and one row has that name. -/
theorem decoderRowsPartitionWords : Obligations.DecoderRowsPartitionWords := by
  unfold Obligations.DecoderRowsPartitionWords
  refine ⟨rfl, fun w => ?one, matches_iff⟩
  case one =>
    have hfilter : decoderRows.filter (fun r => w &&& r.mask = r.pattern) =
        decoderRows.filter (fun r => r.name = rowOf (decode w)) :=
      List.filter_congr fun r hr => decide_eq_decide.mpr (matches_iff w r hr)
    rw [hfilter, filter_name_decoderRows]

/-- Settles O57: of the four causes a word itself decides three, by its opcode and, for a TRAP, its vector. -/
theorem illegalWordsAlwaysFail : Obligations.IllegalWordsAlwaysFail := by
  unfold Obligations.IllegalWordsAlwaysFail
  intro w s hf
  rw [decode, exec_nameAlias, ← not_servedVector_iff]
  refine ⟨fun ⟨t, c, ht, hc, hend⟩ => ?fails, fun h => ?illegal⟩
  case fails =>
    rcases (leaves_of_exec ht).fault with hf' | ⟨hi, -⟩ | ⟨hi, -⟩ | ⟨v, hv, hns, -⟩ | ⟨-, -, hc'⟩
    · cases hc.symm.trans (hf'.trans hf)
    · exact .inl (opcode_of_decodeRow hi)
    · exact .inr (.inl (opcode_of_decodeRow hi))
    · obtain ⟨hop, rfl⟩ := trap_of_trapVector_decodeRow hv
      exact .inr (.inr ⟨hop, hns⟩)
    · exact absurd (Option.some.inj (hc.symm.trans hc')) hend
  case illegal =>
    rcases h with hop | hop | ⟨hop, hns⟩
    · rw [decodeRow_of_rti (by rw [hop]; rfl)]
      exact ⟨_, _, rfl, rfl, nofun⟩
    · rw [decodeRow_of_reserved (by rw [hop]; rfl)]
      exact ⟨_, _, rfl, rfl, nofun⟩
    · rw [decodeRow_of_trap (by rw [hop]; rfl)]
      exact ⟨_, _, execTrap_unserved hns s, rfl, nofun⟩

/-- Settles O58: by computing the decoder. -/
theorem sampleWordsDecode : Obligations.SampleWordsDecode := by
  unfold Obligations.SampleWordsDecode
  decide
end

section
/-! PROOFS. Registers, memory and the keyboard (spec/10_state.md R25 to R37, spec/20_memory.md R50 to R63), and the
instructions that one of their operations makes up: JSRR, RTI and the reserved opcode. -/

namespace Sys2Proof.Machine

open Sys2Proof.Safety

/-! ## Canonical memory -/

theorem Memory.wf_tail {c : Nat × Word} {m : Memory} (h : Memory.wf (c :: m)) : m.wf :=
  ⟨(List.pairwise_cons.mp h.1).2, fun d hd => h.2 d (List.mem_cons_of_mem c hd)⟩

/-- An address before every listed one reads as unlisted. -/
theorem Memory.read_of_lt {m : Memory} {a : Word} (h : ∀ c ∈ m, a.toNat < c.1) : m.read a = Memory.unlisted := by
  induction m with
  | nil => rfl
  | cons c m ih =>
    have hc := h c List.mem_cons_self
    rw [Memory.read, if_neg (by omega)]
    exact ih fun d hd => h d (List.mem_cons_of_mem c hd)

/-- The first listed address reads as its word, which is not the unlisted one. -/
theorem Memory.read_head {c : Nat × Word} {m : Memory} (h : Memory.wf (c :: m)) :
    Memory.read (c :: m) (BitVec.ofNat 16 c.1) = c.2 ∧ c.2 ≠ Memory.unlisted := by
  obtain ⟨hlt, hne⟩ := h.2 c List.mem_cons_self
  have hc : c.1 = (BitVec.ofNat 16 c.1).toNat := by rw [BitVec.toNat_ofNat]; omega
  exact ⟨by rw [Memory.read, if_pos hc], hne⟩

/-- Memories that read alike list no address before each other's first. -/
theorem Memory.head_le {c d : Nat × Word} {m n : Memory} (hc : Memory.wf (c :: m)) (hd : Memory.wf (d :: n))
    (h : ∀ a, Memory.read (c :: m) a = Memory.read (d :: n) a) : d.1 ≤ c.1 := by
  by_contra hlt
  obtain ⟨hread, hne⟩ := Memory.read_head hc
  obtain ⟨hbound, -⟩ := hc.2 c List.mem_cons_self
  refine hne (hread.symm.trans ((h _).trans (Memory.read_of_lt fun e he => ?_)))
  have hle : d.1 ≤ e.1 := by
    rcases List.mem_cons.mp he with rfl | he
    · exact Nat.le_refl _
    · exact Nat.le_of_lt ((List.pairwise_cons.mp hd.1).1 e he)
  rw [BitVec.toNat_ofNat]
  omega

/-- What a canonical memory's tail reads: the same, but for the head's address, which it does not list. -/
theorem Memory.read_tail {c : Nat × Word} {m : Memory} (h : Memory.wf (c :: m)) (a : Word) :
    m.read a = if c.1 = a.toNat then Memory.unlisted else Memory.read (c :: m) a := by
  split
  · next hc => exact Memory.read_of_lt fun d hd => hc ▸ (List.pairwise_cons.mp h.1).1 d hd
  · next hc => rw [Memory.read, if_neg hc]

theorem Memory.eq_of_read_eq {m n : Memory} (hm : m.wf) (hn : n.wf) (h : ∀ a, m.read a = n.read a) : m = n := by
  induction m generalizing n with
  | nil =>
    cases n with
    | nil => rfl
    | cons d n =>
      obtain ⟨hread, hne⟩ := Memory.read_head hn
      exact absurd (hread.symm.trans (h _).symm) hne
  | cons c m ih =>
    cases n with
    | nil =>
      obtain ⟨hread, hne⟩ := Memory.read_head hm
      exact absurd (hread.symm.trans (h _)) hne
    | cons d n =>
      have haddr : c.1 = d.1 := Nat.le_antisymm (Memory.head_le hn hm fun a => (h a).symm) (Memory.head_le hm hn h)
      have hword : c.2 = d.2 := by
        rw [← (Memory.read_head hm).1, ← (Memory.read_head hn).1, h, haddr]
      have htail : m = n := ih (Memory.wf_tail hm) (Memory.wf_tail hn) fun a => by
        rw [Memory.read_tail hm, Memory.read_tail hn, haddr, h]
      rw [htail, Prod.ext haddr hword]

/-! ## Reads of the keyboard status word (R53 d) -/

theorem statusReads_add (j k : Nat) (s : State) : statusReads (j + k) s = statusReads k (statusReads j s) := by
  induction j generalizing s with
  | zero => rw [Nat.zero_add]; rfl
  | succ j ih => rw [Nat.succ_add]; exact ih _

/-- A read of the status word at a quiet moment gives 0, takes the moment and leaves the data word alone. -/
theorem State.memRead_kbsr_quiet {s : State} {rest : List ConEvent} (h : s.con.input = .quiet :: rest) :
    (s.memRead Config.kbsr).1 = 0x0000#16 ∧ (s.memRead Config.kbsr).2.con.input = rest ∧
      (s.memRead Config.kbsr).2.mem.read Config.kbdr = s.mem.read Config.kbdr := by
  have hlook := Console.look_cons h
  have hoffer : offeredByte s.con.look.1 = none := by rw [hlook]; rfl
  rw [State.memRead_kbsr_none hoffer, hlook]
  exact ⟨rfl, rfl, State.memWrite_frame _ Config.kbsr 0x0000#16 Config.kbdr (mt List.mem_singleton.mp kbdr_ne_kbsr)⟩

theorem statusReads_quiet {k : Nat} {s : State} {rest : List ConEvent}
    (h : s.con.input = List.replicate k .quiet ++ rest) :
    (statusReads k s).con.input = rest ∧ (statusReads k s).mem.read Config.kbdr = s.mem.read Config.kbdr := by
  induction k generalizing s with
  | zero => exact ⟨h, rfl⟩
  | succ k ih =>
    obtain ⟨-, hin, hdata⟩ := State.memRead_kbsr_quiet h
    obtain ⟨hin', hdata'⟩ := ih hin
    exact ⟨hin', hdata'.trans hdata⟩

/-- Among `n` quiet moments each read gives 0, and before and after it the data word is the same. -/
theorem statusReads_of_lt {n k : Nat} (hk : k < n) {s : State} {rest : List ConEvent}
    (h : s.con.input = List.replicate n .quiet ++ rest) :
    ((statusReads k s).memRead Config.kbsr).1 = 0x0000#16 ∧
      (statusReads (k + 1) s).mem.read Config.kbdr = s.mem.read Config.kbdr := by
  obtain ⟨j, rfl⟩ := Nat.exists_eq_add_of_lt hk
  have hsplit : s.con.input =
      List.replicate k .quiet ++ .quiet :: (List.replicate j .quiet ++ rest) := by
    rw [h, Nat.add_assoc, List.replicate_add, List.replicate_succ, List.append_assoc, List.cons_append]
  obtain ⟨hin, hdata⟩ := statusReads_quiet hsplit
  obtain ⟨hzero, -, hdata'⟩ := State.memRead_kbsr_quiet hin
  rw [statusReads_add]
  exact ⟨hzero, hdata'.trans hdata⟩

/-- A read of the status word that finds a byte: the two words, and the moment taken (R51, R52). -/
theorem State.memRead_kbsr_of_byte {s : State} {b : Byte} (h : s.con.look.1 = some (.byte b)) :
    (s.memRead Config.kbsr).1 = s.mem.read Config.kbsr ||| Config.kbsrReady ∧
      (s.memRead Config.kbsr).2.mem.read Config.kbsr = s.mem.read Config.kbsr ||| Config.kbsrReady ∧
      (s.memRead Config.kbsr).2.mem.read Config.kbdr = zext b ∧ (s.memRead Config.kbsr).2.con = s.con.look.2 := by
  have hoffer : offeredByte s.con.look.1 = some b := by rw [h]; rfl
  rw [State.memRead_kbsr_byte hoffer]
  refine ⟨rfl, ?status, Memory.read_write_self _ _ _, rfl⟩
  case status =>
    exact (Memory.read_write _ _ _ _).trans ((if_neg kbsr_ne_kbdr).trans (Memory.read_write_self _ _ _))

/-! ## Single instructions -/

/-- The base register is read after the link (R145). -/
theorem exec_jsrr (base : RegIdx) (s : State) :
    exec (.jsrr base) s = .next (s.link.setPc (if base = 7#3 then s.pc else s.getReg base)) := by
  have hbase : s.link.getReg base = if base = 7#3 then s.pc else s.getReg base := s.link_getReg base
  rw [← hbase]; rfl

theorem State.raise_raises (s : State) (c : FaultCause) : Raises s (s.raise c) c [] :=
  ⟨rfl, rfl, regsFrame_of_regs rfl _, rfl, rfl, memFrame_of_mem rfl _⟩

end Sys2Proof.Machine

open Sys2Proof Sys2Proof.Machine Sys2Proof.Safety

/-- Settles O6: the read of 0xFE00 by what the look finds, every other read by its being plain. -/
theorem memoryReadPollsKeyboard : Obligations.MemoryReadPollsKeyboard := by
  unfold Obligations.MemoryReadPollsKeyboard
  refine ⟨fun s a ha => State.memRead_of_ne ha, fun s b h => State.memRead_kbsr_of_byte h, fun s h => ?none,
    fun s a => ?frames, fun c e rest h => Console.look_cons h, fun c h he => Console.look_ended h he,
    fun c h he => ?free, fun s a hu => State.byHost_of_finished hu _⟩
  case none =>
    have hoffer : offeredByte s.con.look.1 = none := by rcases h with h | h <;> rw [h] <;> rfl
    rw [State.memRead_kbsr_none hoffer]
    exact ⟨rfl, rfl, State.memWrite_stores _ _ _⟩
  case frames =>
    obtain ⟨hregs, hpc, hmem, hout, hst⟩ := s.afterRead_frames a
    exact ⟨hregs, hpc, s.afterRead_cond a, hmem, hout, hst⟩
  case free =>
    rw [Console.look_free h he]
    exact ⟨rfl, rfl⟩

/-- Settles O7: quiet moments, the byte, and quiet moments again, each by the read that takes it. -/
theorem keyboardByteReportedOnce : Obligations.KeyboardByteReportedOnce := by
  unfold Obligations.KeyboardByteReportedOnce
  intro s n m b rest hin
  obtain ⟨hbyte, -⟩ := statusReads_quiet hin
  have hlook := Console.look_cons hbyte
  obtain ⟨hword, -, hdata, hcon⟩ := State.memRead_kbsr_of_byte (congrArg Prod.fst hlook)
  have hnext : statusReads (n + 1) s = ((statusReads n s).memRead Config.kbsr).2 := statusReads_add n 1 s
  have hin' : (statusReads (n + 1) s).con.input = List.replicate m .quiet ++ rest := by rw [hnext, hcon, hlook]
  rw [← hnext] at hdata
  refine ⟨fun k hk => (statusReads_of_lt hk hin).1, ?ready, hdata, fun k hnk hkm => ?after⟩
  case ready => rw [hword]; exact or_kbsrReady_bit15 _
  case after =>
    obtain ⟨j, rfl⟩ := Nat.exists_eq_add_of_lt hnk
    obtain ⟨hzero, hdata'⟩ := statusReads_of_lt (k := j) (by omega) hin'
    rw [Nat.add_right_comm n j 1, Nat.add_assoc (n + 1) j 1, statusReads_add (n + 1), statusReads_add (n + 1)]
    exact ⟨hzero, hdata'.trans hdata⟩

/-- Settles O9: canonical lists that read alike have the same head, and tails that read alike. -/
theorem equalReadsEqualMemory : Obligations.EqualReadsEqualMemory := by
  unfold Obligations.EqualReadsEqualMemory
  exact fun m m' hm hm' h => Memory.eq_of_read_eq hm hm' h

/-- Settles O19: after the link, JSRR jumps to what its base register then holds. -/
theorem jumpToSubroutineThroughRegister : Obligations.JumpToSubroutineThroughRegister := by
  unfold Obligations.JumpToSubroutineThroughRegister
  refine ⟨fun w hop h11 => ?decoding, fun base s => ?effect⟩
  case decoding => exact decode_of_decodeRow ((decodeRow_of_jsr hop).trans (if_neg (ne_true_of_eq_false h11))) rfl
  case effect => exact ⟨_, exec_jsrr base s, s.link_getReg_seven, s.link_setPc_jumps _⟩

/-- Settles O1: memory lists nothing and every register is 0. -/
theorem resetState : Obligations.ResetState := by
  unfold Obligations.ResetState
  refine ⟨State.reset_getReg, rfl, rfl, rfl, Memory.read_nil, rfl, ?flag⟩
  case flag => rw [State.reset_getReg]; rfl

/-- Settles O4: a mask has one bit for each flag, so the eight masks decide it. -/
theorem branchMaskBits : Obligations.BranchMaskBits := by
  unfold Obligations.BranchMaskBits
  decide

/-- Settles O5: a store is plain at every address. -/
theorem memoryWriteIsPlainStore : Obligations.MemoryWriteIsPlainStore := by
  unfold Obligations.MemoryWriteIsPlainStore
  exact State.memWrite_stores

/-- Settles O8: a fetch off 0xFE00 reads the stored word, which is the one just written. -/
theorem storeSeenByNextFetch : Obligations.StoreSeenByNextFetch := by
  unfold Obligations.StoreSeenByNextFetch
  intro s a v ha
  have hread : ((s.memWrite a v).setPc a).memRead a = (v, (s.memWrite a v).setPc a) := by
    rw [State.memRead_of_ne ha, State.setPc_mem, State.memWrite_mem, Memory.read_write_self]
  rw [State.fetch, State.setPc_pc, hread]; rfl

/-- Settles O35: each of the two opcodes is one row without operands, and raises. -/
theorem rtiAndReservedOpcodeFault : Obligations.RtiAndReservedOpcodeFault := by
  unfold Obligations.RtiAndReservedOpcodeFault
  refine ⟨fun w hop => ?rtiDecoding, fun w hop => ?resDecoding, fun s => ?rti, fun s => ?res⟩
  case rtiDecoding => exact decode_of_decodeRow (decodeRow_of_rti hop) rfl
  case resDecoding => exact decode_of_decodeRow (decodeRow_of_reserved hop) rfl
  case rti => exact ⟨_, rfl, s.raise_raises .rtiNotImplemented, rfl, rfl⟩
  case res => exact ⟨_, rfl, s.raise_raises .reservedOpcode, rfl, rfl⟩
end

section
/-! PROOFS. The host's operations (spec/70_reset_and_hazards.md R235 to R242): what `load` stores, and what keeps the
invariant. -/

namespace Sys2Proof.Machine

open Sys2Proof.Safety

/-- Inside an unfinished instruction the host has no move (R242). -/
theorem State.byHost_of_unfinished {α : Type} {s : State} (hu : s.unfinished.isSome = true) (act : State → α) :
    s.byHost act = none := by
  have hact : s.hostMayAct = false := by
    rw [State.hostMayAct, ← Option.not_isSome, hu]; rfl
  rw [State.byHost, hact, if_neg Bool.false_ne_true]

/-! ## load (R236) -/

/-- Stores change memory only, and keep its canonical form. -/
theorem storeWords_eq (s : State) (a : Word) (ws : List Word) :
    storeWords s a ws = { s with mem := (storeWords s a ws).mem } := by
  induction ws generalizing s a with
  | nil => rfl
  | cons w ws ih => exact ih (s.memWrite a w) (a + 1)

theorem storeWords_wf {s : State} (h : s.mem.wf) (a : Word) (ws : List Word) : (storeWords s a ws).mem.wf := by
  induction ws generalizing s a with
  | nil => exact h
  | cons w ws ih => exact ih (s := s.memWrite a w) (Memory.wf_write h a w) (a + 1)

theorem storeWords_read_other {s : State} {a b : Word} {ws : List Word}
    (h : ∀ k, k < ws.length → b ≠ a + BitVec.ofNat 16 k) : (storeWords s a ws).mem.read b = s.mem.read b := by
  induction ws generalizing s a with
  | nil => rfl
  | cons w ws ih =>
    have hb : b ≠ a := by simpa only [BitVec.add_zero] using h 0 (Nat.succ_pos _)
    rw [storeWords, ih fun k hk => by rw [add_ofNat_succ]; exact h (k + 1) (Nat.succ_lt_succ hk), State.memWrite_mem,
      Memory.read_write, if_neg hb]

/-- Word `k` stands at the origin plus `k`: at most 65536 words do not come round to it again (D14). -/
theorem storeWords_read {s : State} {a : Word} {ws : List Word} (hlen : ws.length ≤ 65536) {k : Nat}
    (hk : k < ws.length) : (storeWords s a ws).mem.read (a + BitVec.ofNat 16 k) = ws[k] := by
  induction ws generalizing s a k with
  | nil => exact absurd hk (Nat.not_lt_zero k)
  | cons w ws ih =>
    rw [List.length_cons] at hlen
    cases k with
    | zero =>
      have hpast : ∀ j, j < ws.length → a ≠ a + 1 + BitVec.ofNat 16 j := fun j hj => by bv_omega
      rw [BitVec.add_zero, storeWords, storeWords_read_other hpast, State.memWrite_mem, Memory.read_write_self,
        List.getElem_cons_zero]
    | succ k =>
      rw [storeWords, ← add_ofNat_succ, List.getElem_cons_succ]
      exact ih (by omega) (Nat.lt_of_succ_lt_succ hk)

theorem State.storeImage_of_words {bytes : List Byte} {origin : Word} {ws : List Word}
    (h : imageWords bytes = origin :: ws) (s : State) : s.storeImage bytes = storeWords s origin ws := by
  rw [State.storeImage, h]

theorem State.storeImage_eq (s : State) (bytes : List Byte) :
    s.storeImage bytes = { s with mem := (s.storeImage bytes).mem } := by
  rcases h : imageWords bytes with _ | ⟨origin, ws⟩
  · rw [State.storeImage, h]
  · rw [State.storeImage_of_words h]; exact storeWords_eq s origin ws

theorem State.storeImage_wf {s : State} (hw : s.mem.wf) (bytes : List Byte) : (s.storeImage bytes).mem.wf := by
  rcases h : imageWords bytes with _ | ⟨origin, ws⟩
  · rwa [State.storeImage, h]
  · rw [State.storeImage_of_words h]; exact storeWords_wf hw origin ws

/-- A stream holds an origin word iff it has two bytes (R236). -/
theorem imageWords_eq_nil_iff (bytes : List Byte) : imageWords bytes = [] ↔ bytes.length < 2 := by
  match bytes with
  | [] => exact ⟨fun _ => by decide, fun _ => rfl⟩
  | [_] => exact ⟨fun _ => Nat.lt_succ_self 1, fun _ => rfl⟩
  | _ :: _ :: _ => exact ⟨nofun, fun h => absurd h (by simp)⟩

theorem loadStatus_eq_ok_iff (bytes : List Byte) :
    loadStatus bytes = .ok ↔ 2 ≤ bytes.length ∧ bytes.length % 2 = 0 := by
  rw [loadStatus]
  split
  · next h => exact ⟨fun _ => h, fun _ => rfl⟩
  · next h => exact ⟨nofun, fun h' => absurd h' h⟩

end Sys2Proof.Machine

namespace Sys2Proof.Safety

open Sys2Proof.Machine

/-- The invariant speaks of memory, R7, PC, the run bit, the fault and the unfinished instruction only. -/
theorem Consistent.of_eq {s t : State} (h : Consistent s) (hw : t.mem.wf) (hregs : t.regs = s.regs)
    (hpc : t.pc = s.pc) (hrun : t.running = s.running) (hfault : t.fault = s.fault)
    (hunf : t.unfinished = s.unfinished) : Consistent t where
  mem := hw
  unfinished := by rw [hunf, hrun, hfault, State.getReg_congr hregs, hpc]; exact h.unfinished
  fault := by rw [hfault, hrun]; exact h.fault

end Sys2Proof.Safety

open Sys2Proof Sys2Proof.Machine Sys2Proof.Safety

/-- Settles O51: the host's moves and the console's change memory by stores and reads, the console, or set the run
bit. -/
theorem hostOperationsKeepInvariant : Obligations.HostOperationsKeepInvariant := by
  unfold Obligations.HostOperationsKeepInvariant
  refine ⟨fun s bytes a k hu => ?inside, fun s bytes r hs h => ?load, fun s a r hs h => ?readMemory,
    fun s t hs h => ?resume, fun s e hs => ?offer, fun s hs => ?close, fun k con hk => ?restore⟩
  case inside =>
    have hnone {α : Type} (act : State → α) := State.byHost_of_unfinished hu act
    exact ⟨hnone _, hnone _, hnone _, hnone _, hnone _⟩
  case load =>
    obtain rfl := State.byHost_eq_some h
    change Consistent (s.storeImage bytes)
    rw [State.storeImage_eq]
    exact hs.of_eq (State.storeImage_wf hs.mem bytes) rfl rfl rfl rfl rfl
  case readMemory =>
    obtain rfl := State.byHost_eq_some h
    exact hs.of_eq (State.afterRead_wf hs.mem a) (s.afterRead_regs a) (s.afterRead_pc a) (s.afterRead_running a)
      (s.afterRead_fault a) (s.afterRead_unfinished a)
  case resume =>
    obtain rfl := State.byHost_eq_some h
    refine ⟨hs.mem, fun hu => ?_, fun c hc => ⟨rfl, (hs.fault c hc).2⟩⟩
    obtain ⟨-, hfault, hlinked⟩ := hs.unfinished hu
    exact ⟨rfl, hfault, hlinked⟩
  case offer =>
    rw [State.consoleOffer]
    split
    · exact hs
    · exact hs.of_eq hs.mem rfl rfl rfl rfl rfl
  case close => exact hs.of_eq hs.mem rfl rfl rfl rfl rfl
  case restore => exact ⟨hk, nofun, nofun⟩

/-- Settles O59: `load` is the stores of the words after the origin, and what it reports depends on the length alone. -/
theorem loadStoresImage : Obligations.LoadStoresImage := by
  unfold Obligations.LoadStoresImage
  refine ⟨fun s bytes origin ws hu himage hlen => ?image, fun s bytes hu hshort => ?short⟩
  case image =>
    have hlong : 2 ≤ bytes.length := Nat.le_of_not_lt fun h => by
      rw [(imageWords_eq_nil_iff bytes).mpr h] at himage; cases himage
    have hload : s.load bytes = some (loadStatus bytes, storeWords s origin ws) := by
      rw [State.load, State.byHost_of_finished hu, State.storeImage_of_words himage]
    refine ⟨_, _, hload, fun k hk => storeWords_read hlen hk, fun a ha => storeWords_read_other ha,
      storeWords_eq s origin ws, ?status⟩
    case status => rw [loadStatus_eq_ok_iff, and_iff_right hlong]
  case short =>
    have himage := (imageWords_eq_nil_iff bytes).mpr hshort
    have hstatus : loadStatus bytes = .ioError := if_neg fun h => absurd hshort (Nat.not_lt.mpr h.1)
    rw [State.load, State.byHost_of_finished hu, hstatus, State.storeImage, himage]

/-- Settles O60: `restore` puts back what `snapshot` took, and the new core is HALTED. -/
theorem restoreOfSnapshot : Obligations.RestoreOfSnapshot := by
  unfold Obligations.RestoreOfSnapshot
  refine ⟨fun s con hu => ?restore, fun s hu => State.byHost_of_finished hu _⟩
  case restore =>
    refine ⟨_, State.byHost_of_finished hu _, rfl, rfl, rfl, rfl, rfl, rfl, rfl, rfl, fun n => ?run⟩
    case run =>
      rw [State.run, State.byHost_of_finished rfl, runFor_of_stopped (.inl rfl)]; rfl
end
